-- ==== Sys2Proof/Word.lean ====
section
/-!
DEFINITION. The values the encoder handles: bytes, 16-bit addresses, 3-bit register codes, 4-bit
opcode classes (00_scope.md R8 to R12), and the closed sets of names the spec gives: register
identifiers (R20), mnemonics (R70) and operand variants (R25).
The codes behind these names are in Decode.lean; this file holds no number of the wire format.
-/

namespace Sys2Proof

/-- One byte, bits 7 (most significant) to 0 (R9). -/
abbrev Byte := BitVec 8

/-- A 16-bit immediate; the address operand of lw, sw and lda (R25). -/
abbrev Addr := BitVec 16

/-- The 3-bit field that carries a register code. Codes 0 to 5 name a register; 6 and 7 can be
carried by the field and name none (R23). -/
abbrev RegCode := BitVec 3

/-- The 4-bit opcode class, byte 0 bits 7:4 (R61). -/
abbrev ClassCode := BitVec 4

/-- The six register identifiers (R20). They are operand values; the block holds no register file
(R21). -/
inductive Reg where
  | A | B | C | D | H | Z
deriving DecidableEq, Repr

/-- The sixteen mnemonics, in the order of the table of R70. The names `and`, `or` and `nor` are the
spec's own (R16). -/
inductive Mnemonic where
  | mw | lw | sw | push | pop | lda | jnz | inb | outb
  | add | adc | and | or | nor | cmp | sbb
deriving DecidableEq, Repr

/-- What an operand slot of a command holds (R12, R25). -/
inductive Operand where
  /-- `Reg(r)`: a register code. Codes 6 and 7 are expressible here because the spec's bit-level
  interface can carry them; they fail the acceptance check (R23, R106). -/
  | reg (code : RegCode)
  /-- `Imm8(v)`: an 8-bit constant, raw bits (R25). -/
  | imm8 (v : Byte)
  /-- `Imm16(w)`: a 16-bit constant, raw bits (R25). -/
  | imm16 (w : Addr)
  /-- An omitted operand (R12). -/
  | absent
  /-- A bit-level slot that is not well-formed: its payload has bits above its variant's width, or
  is not 0 under the tag `absent` (R104). It fails every acceptance check. -/
  | malformed
deriving DecidableEq, Repr

end Sys2Proof
end

