-- ==== Sys2Proof/Config.lean ====
section
/-!
DEFINITION. The parameters of the block (00_scope.md R8, 70_reset_and_hazards.md R182): fixed for the
life of the block and set by no command.

`LOAD_BASE` (R50) is outside the block, which never reads it: it is an argument of the loader's view
`placeAt` (Machine/Ops.lean), not a field here. `CPU_SEMANTICS` (D22) is out of the spec's scope.
The spec leaves no value free in the encoder, so this file declares no opaque constant.
-/

namespace Sys2Proof

/-- What an encode command does after an error (R108, decision D7). -/
inductive ErrorPolicy where
  /-- Every later encode command is answered `TERMINATED` until `new()`. The default. -/
  | abort
  /-- Encode commands go on as before; the fault flag stays 1. -/
  | report
deriving DecidableEq, Repr

/-- The two parameters of the block that some command's effect depends on. -/
structure Config where
  /-- `ERROR_POLICY` (R8, R108). -/
  errorPolicy : ErrorPolicy
  /-- `MAX_IMAGE_LEN` (R8, R49): `none` is unbounded, `some n` is a finite implementation. -/
  maxImageLen : Option Nat
deriving DecidableEq, Repr

/-- The values this hardware takes (the table of R8): `ABORT` and unbounded. -/
def Config.hardware : Config where
  errorPolicy := .abort
  maxImageLen := none

end Sys2Proof
end

