-- ==== Sys2Proof/Syntax.lean ====
section
/-!
DEFINITION. The instructions: one constructor for each row of spec/opcode_table.json, that is for each
form of each mnemonic. The operands stand in the slot order of 30_encoding.md R70 (so `sw` and `outb`
have the address or port first and the source register second).

A register operand is its 3-bit code as the field carries it; WellFormed.lean says which codes name a
register.
-/

namespace Sys2Proof

inductive Instr where
  /-- `mw(dest, Reg(src))`, R110. -/
  | mwReg (dest src : RegCode)
  /-- `mw(dest, Imm8(v))`, R110. -/
  | mwImm (dest : RegCode) (v : Byte)
  /-- `lw(dest, Imm16(a))`, R111. -/
  | lwAddr (dest : RegCode) (a : Addr)
  /-- `lw(dest, absent)`, the implicit-HL form, R111. -/
  | lwHl (dest : RegCode)
  /-- `sw(Imm16(a), src)`, R112. -/
  | swAddr (a : Addr) (src : RegCode)
  /-- `sw(absent, src)`, the implicit-HL form, R112. -/
  | swHl (src : RegCode)
  /-- `push(Reg(src))`, R113. -/
  | pushReg (src : RegCode)
  /-- `push(Imm8(v))`, R113. -/
  | pushImm (v : Byte)
  /-- `pop(dest)`, R114. -/
  | popReg (dest : RegCode)
  /-- `lda(Imm16(a))`, R115. -/
  | ldaAddr (a : Addr)
  /-- `jnz(Reg(src))`, R130. -/
  | jnzReg (src : RegCode)
  /-- `jnz(Imm8(v))`, R130. -/
  | jnzImm (v : Byte)
  /-- `inb(dest, Reg(port))`, R131. -/
  | inbReg (dest port : RegCode)
  /-- `inb(dest, Imm8(port))`, R131. -/
  | inbImm (dest : RegCode) (port : Byte)
  /-- `outb(Reg(port), src)`, R132. -/
  | outbReg (port src : RegCode)
  /-- `outb(Imm8(port), src)`, R132. -/
  | outbImm (port : Byte) (src : RegCode)
  /-- `add(dest, Reg(src))`, R141. -/
  | addReg (dest src : RegCode)
  /-- `add(dest, Imm8(v))`, R141. -/
  | addImm (dest : RegCode) (v : Byte)
  /-- `adc(dest, Reg(src))`, R142. -/
  | adcReg (dest src : RegCode)
  /-- `adc(dest, Imm8(v))`, R142. -/
  | adcImm (dest : RegCode) (v : Byte)
  /-- `and(dest, Reg(src))`, R143. -/
  | andReg (dest src : RegCode)
  /-- `and(dest, Imm8(v))`, R143. -/
  | andImm (dest : RegCode) (v : Byte)
  /-- `or(dest, Reg(src))`, R144. -/
  | orReg (dest src : RegCode)
  /-- `or(dest, Imm8(v))`, R144. -/
  | orImm (dest : RegCode) (v : Byte)
  /-- `nor(dest, Reg(src))`, R145. -/
  | norReg (dest src : RegCode)
  /-- `nor(dest, Imm8(v))`, R145. -/
  | norImm (dest : RegCode) (v : Byte)
  /-- `cmp(left, Reg(right))`, R146. -/
  | cmpReg (left right : RegCode)
  /-- `cmp(left, Imm8(v))`, R146. -/
  | cmpImm (left : RegCode) (v : Byte)
  /-- `sbb(dest, Reg(src))`, R147. -/
  | sbbReg (dest src : RegCode)
  /-- `sbb(dest, Imm8(v))`, R147. -/
  | sbbImm (dest : RegCode) (v : Byte)
deriving DecidableEq, Repr

end Sys2Proof
end

