-- ==== Sys2Proof/WellFormed.lean ====
section
/-!
DEFINITION. When a term of Instr is an instruction the encoder accepts: every register code it carries
names a register, 0 to 5 (10_state.md R20, R23). The widths of immediates are in their types (R25), so
nothing else is to check.
-/

namespace Sys2Proof

/-- The code names one of the six registers (R20). -/
def RegCode.named (c : RegCode) : Bool := decide (c.toNat ≤ 5)

/-- The register codes an instruction carries, in slot order. -/
def Instr.regCodes : Instr → List RegCode
  | .mwReg d r => [d, r]
  | .mwImm d _ => [d]
  | .lwAddr d _ => [d]
  | .lwHl d => [d]
  | .swAddr _ r => [r]
  | .swHl r => [r]
  | .pushReg r => [r]
  | .pushImm _ => []
  | .popReg d => [d]
  | .ldaAddr _ => []
  | .jnzReg r => [r]
  | .jnzImm _ => []
  | .inbReg d q => [d, q]
  | .inbImm d _ => [d]
  | .outbReg q r => [q, r]
  | .outbImm _ r => [r]
  | .addReg d r => [d, r]
  | .addImm d _ => [d]
  | .adcReg d r => [d, r]
  | .adcImm d _ => [d]
  | .andReg d r => [d, r]
  | .andImm d _ => [d]
  | .orReg d r => [d, r]
  | .orImm d _ => [d]
  | .norReg d r => [d, r]
  | .norImm d _ => [d]
  | .cmpReg l r => [l, r]
  | .cmpImm l _ => [l]
  | .sbbReg d r => [d, r]
  | .sbbImm d _ => [d]

/-- Every register code of the instruction names a register (R23: no instruction the block produces
carries code 6 or 7). -/
def Instr.wf (i : Instr) : Bool := i.regCodes.all RegCode.named

end Sys2Proof
end

