-- ==== Sys2Proof/Decode.lean ====
section
/-!
DEFINITION. The wire format: the codes of registers and mnemonics (10_state.md R20, 30_encoding.md
R70), the byte order of addresses (20_memory.md R43), the reference decoder of 30_encoding.md R90 with
its errors by name, and the encoder `encode`, written row by row from spec/opcode_table.json (the
`match` and field places of each row, which are the bytes column of R70).

The packing the MACHINE does is not `encode`: it is the field formula of R67 and R71, in
Machine/Operands.lean. That the two agree is a statement.
-/

namespace Sys2Proof

/-- The fixed 3-bit code of each register identifier (R20). -/
def Reg.code : Reg → RegCode
  | .A => 0
  | .B => 1
  | .C => 2
  | .D => 3
  | .H => 4
  | .Z => 5

/-- The identifier a code names; codes 6 and 7 name none (R20, R23). -/
def Reg.ofCode? (c : RegCode) : Option Reg :=
  match c.toNat with
  | 0 => some .A
  | 1 => some .B
  | 2 => some .C
  | 3 => some .D
  | 4 => some .H
  | 5 => some .Z
  | _ => none

/-- `CLASS(mn)`: the class column of R70; mw is class 0x0 by R72. -/
def Mnemonic.classCode : Mnemonic → ClassCode
  | .mw => 0x0
  | .lw => 0x1
  | .sw => 0x2
  | .push => 0x3
  | .pop => 0x4
  | .lda => 0x5
  | .jnz => 0x6
  | .inb => 0x7
  | .outb => 0x8
  | .add => 0x9
  | .adc => 0xA
  | .and => 0xB
  | .or => 0xC
  | .nor => 0xD
  | .cmp => 0xE
  | .sbb => 0xF

/-- The mnemonic of a class: every one of the 16 classes is assigned (R73). -/
def Mnemonic.ofClass (c : ClassCode) : Mnemonic :=
  match c.toNat with
  | 0x0 => .mw
  | 0x1 => .lw
  | 0x2 => .sw
  | 0x3 => .push
  | 0x4 => .pop
  | 0x5 => .lda
  | 0x6 => .jnz
  | 0x7 => .inb
  | 0x8 => .outb
  | 0x9 => .add
  | 0xA => .adc
  | 0xB => .and
  | 0xC => .or
  | 0xD => .nor
  | 0xE => .cmp
  | _ => .sbb

/-! ### Bit fields and byte order -/

/-- `zext_8` of a register code (R10, R64). -/
def zext8 (c : RegCode) : Byte := c.setWidth 8

/-- `w[7:0]`. -/
def addrLo (w : Addr) : Byte := w.extractLsb' 0 8

/-- `w[15:8]`. -/
def addrHi (w : Addr) : Byte := w.extractLsb' 8 8

/-- `(hi << 8) | lo`: the address whose low byte is `lo` and whose high byte is `hi` (R43, R90). -/
def addrOf (lo hi : Byte) : Addr := (hi.setWidth 16 <<< 8) ||| lo.setWidth 16

/-- `byte0[7:4]`, the class field (R61). -/
def byte0Class (b : Byte) : ClassCode := b.extractLsb' 4 4

/-- `byte0[3]`, the mode bit (R61, R62). -/
def byte0Mode (b : Byte) : Bool := b.getLsbD 3

/-- `byte0[2:0]`, the primary register field (R61, R63). -/
def byte0Prim (b : Byte) : RegCode := b.extractLsb' 0 3

/-! ### The reference decoder (R90) -/

/-- Why the reference decoder answers `INVALID` (R85, R90). -/
inductive DecodeError where
  /-- The bytes end before the instruction does. -/
  | truncated
  /-- A byte pattern no accepted command emits: a byte 0 of the last column of R80, or an RR byte 1
  above 0x05 (R82). -/
  | notProduced
deriving DecidableEq, Repr

/-- A decoded instruction and its length, or the reason there is none. -/
abbrev Decoded := Except DecodeError (Instr × Nat)

/-- The arm of R90 for the ten mnemonics with a register-or-immediate operand beside a register: `p`
and the mode from byte 0, then one byte, a register code in mode 1 and an immediate in mode 0. -/
def decodeRegOrImm (mkReg : RegCode → RegCode → Instr) (mkImm : RegCode → Byte → Instr)
    (mode : Bool) (p : RegCode) (rest : List Byte) : Decoded :=
  if 5 < p.toNat then .error .notProduced
  else match rest with
    | [] => .error .truncated
    | b1 :: _ =>
      if mode then
        if 5 < b1.toNat then .error .notProduced else .ok (mkReg p (b1.setWidth 3), 2)
      else .ok (mkImm p b1, 2)

/-- The arm of R90 for lw and sw: no further byte in mode 1, an address in mode 0. -/
def decodeAddrOrHl (mkAddr : RegCode → Addr → Instr) (mkHl : RegCode → Instr)
    (mode : Bool) (p : RegCode) (rest : List Byte) : Decoded :=
  if 5 < p.toNat then .error .notProduced
  else if mode then .ok (mkHl p, 1)
  else match rest with
    | lo :: hi :: _ => .ok (mkAddr p (addrOf lo hi), 3)
    | _ => .error .truncated

/-- The arm of R90 for push and jnz: the register in byte 0 in mode 1, an immediate byte in mode 0. -/
def decodeSingle (mkReg : RegCode → Instr) (mkImm : Byte → Instr)
    (mode : Bool) (p : RegCode) (rest : List Byte) : Decoded :=
  if mode then
    if 5 < p.toNat then .error .notProduced else .ok (mkReg p, 1)
  else if p ≠ 0 then .error .notProduced
  else match rest with
    | [] => .error .truncated
    | b1 :: _ => .ok (mkImm b1, 2)

/-- The arm of R90 for pop. -/
def decodePop (mode : Bool) (p : RegCode) : Decoded :=
  if mode = false ∨ 5 < p.toNat then .error .notProduced else .ok (.popReg p, 1)

/-- The arm of R90 for lda. -/
def decodeLda (mode : Bool) (p : RegCode) (rest : List Byte) : Decoded :=
  if mode = true ∨ p ≠ 0 then .error .notProduced
  else match rest with
    | lo :: hi :: _ => .ok (.ldaAddr (addrOf lo hi), 3)
    | _ => .error .truncated

/-- One instruction at the head of a byte sequence (R90 with `k = 0`), total on any bytes. -/
def decodeBytes : List Byte → Decoded
  | [] => .error .truncated
  | b0 :: rest =>
    let m := byte0Mode b0
    let p := byte0Prim b0
    match Mnemonic.ofClass (byte0Class b0) with
    | .mw => decodeRegOrImm .mwReg .mwImm m p rest
    | .lw => decodeAddrOrHl .lwAddr .lwHl m p rest
    | .sw => decodeAddrOrHl (fun r a => .swAddr a r) .swHl m p rest
    | .push => decodeSingle .pushReg .pushImm m p rest
    | .pop => decodePop m p
    | .lda => decodeLda m p rest
    | .jnz => decodeSingle .jnzReg .jnzImm m p rest
    | .inb => decodeRegOrImm .inbReg .inbImm m p rest
    | .outb => decodeRegOrImm (fun r q => .outbReg q r) (fun r v => .outbImm v r) m p rest
    | .add => decodeRegOrImm .addReg .addImm m p rest
    | .adc => decodeRegOrImm .adcReg .adcImm m p rest
    | .and => decodeRegOrImm .andReg .andImm m p rest
    | .or => decodeRegOrImm .orReg .orImm m p rest
    | .nor => decodeRegOrImm .norReg .norImm m p rest
    | .cmp => decodeRegOrImm .cmpReg .cmpImm m p rest
    | .sbb => decodeRegOrImm .sbbReg .sbbImm m p rest

/-- `Decode(s, k)` (R90). -/
def decodeAt (s : List Byte) (k : Nat) : Decoded := decodeBytes (s.drop k)

/-- `Decode` at 0, then at each next instruction, at most `fuel` times (R90). -/
def decodeUpTo : Nat → List Byte → Except DecodeError (List Instr)
  | _, [] => .ok []
  | 0, _ :: _ => .error .truncated
  | fuel + 1, b :: s =>
    match decodeBytes (b :: s) with
    | .error e => .error e
    | .ok (i, n) =>
      match decodeUpTo fuel ((b :: s).drop n) with
      | .error e => .error e
      | .ok is => .ok (i :: is)

/-- A whole image, decoded from index 0 until its end (R90). Every instruction takes at least one
byte, so as many rounds as there are bytes are enough. -/
def decodeImage (s : List Byte) : Except DecodeError (List Instr) := decodeUpTo s.length s

/-! ### The encoder: the rows of the opcode table -/

/-- The bytes of an instruction: its row's `match` in spec/opcode_table.json with the row's fields put
in (`p` in byte 0 bits 2:0, `s` or `i` in byte 1, `l` and `h` in bytes 1 and 2). -/
def encode : Instr → List Byte
  | .mwReg d r => [0x08 ||| zext8 d, zext8 r]
  | .mwImm d v => [0x00 ||| zext8 d, v]
  | .lwAddr d a => [0x10 ||| zext8 d, addrLo a, addrHi a]
  | .lwHl d => [0x18 ||| zext8 d]
  | .swAddr a r => [0x20 ||| zext8 r, addrLo a, addrHi a]
  | .swHl r => [0x28 ||| zext8 r]
  | .pushReg r => [0x38 ||| zext8 r]
  | .pushImm v => [0x30, v]
  | .popReg d => [0x48 ||| zext8 d]
  | .ldaAddr a => [0x50, addrLo a, addrHi a]
  | .jnzReg r => [0x68 ||| zext8 r]
  | .jnzImm v => [0x60, v]
  | .inbReg d q => [0x78 ||| zext8 d, zext8 q]
  | .inbImm d v => [0x70 ||| zext8 d, v]
  | .outbReg q r => [0x88 ||| zext8 r, zext8 q]
  | .outbImm v r => [0x80 ||| zext8 r, v]
  | .addReg d r => [0x98 ||| zext8 d, zext8 r]
  | .addImm d v => [0x90 ||| zext8 d, v]
  | .adcReg d r => [0xA8 ||| zext8 d, zext8 r]
  | .adcImm d v => [0xA0 ||| zext8 d, v]
  | .andReg d r => [0xB8 ||| zext8 d, zext8 r]
  | .andImm d v => [0xB0 ||| zext8 d, v]
  | .orReg d r => [0xC8 ||| zext8 d, zext8 r]
  | .orImm d v => [0xC0 ||| zext8 d, v]
  | .norReg d r => [0xD8 ||| zext8 d, zext8 r]
  | .norImm d v => [0xD0 ||| zext8 d, v]
  | .cmpReg l r => [0xE8 ||| zext8 l, zext8 r]
  | .cmpImm l v => [0xE0 ||| zext8 l, v]
  | .sbbReg d r => [0xF8 ||| zext8 d, zext8 r]
  | .sbbImm d v => [0xF0 ||| zext8 d, v]

/-! ### The opcode table's words -/

/-- The bytes of a table word. spec/opcode_table.json numbers a row's bytes as one number with byte 0
the most significant byte (spec/INDEX.md, "Reading opcode_table.json"), so byte 0 is the top byte of
the `nbits` bits. Two zero bytes follow, up to the longest instruction (log entry 5). -/
def tableBytes (nbits w : Nat) : List Byte :=
  let n := (nbits + 7) / 8
  (List.range n).map (fun k => BitVec.ofNat 8 (w >>> (8 * (n - 1 - k)))) ++ [0, 0]

/-- The instruction the decoder reads from a table word, `none` where it answers `INVALID`. -/
def decodeTableWord (nbits w : Nat) : Option Instr :=
  match decodeBytes (tableBytes nbits w) with
  | .ok (i, _) => some i
  | .error _ => none

end Sys2Proof
end

