-- ==== Sys2Proof/Machine/Command.lean ====
section
/-!
DEFINITION. The command interface at transaction level (40_session.md R103, R105): what the caller
sends, what the block answers, and how an encode command's mnemonic and operand variants pick a row of
the opcode table (the format multiplexer, 30_encoding.md R69, R70).
-/

namespace Sys2Proof.Machine

/-- One command of the stream the caller issues (R103). -/
inductive Command where
  /-- `NEW`, the method `new()` (R100). -/
  | new
  /-- `READ`, the method `bytes()` (R101). -/
  | read
  /-- `ENCODE(mn, a, b)`: the method of mnemonic `mn`, slot 1 `a`, slot 2 `b` (R102). -/
  | encode (mn : Mnemonic) (a b : Operand)
  /-- The bit-level `cmd = 11`, which is no command (R104). -/
  | reserved
deriving DecidableEq, Repr

/-- The operand slot an error names (R163). -/
inductive Slot where
  | one
  | two
deriving DecidableEq, Repr

/-- The status an encode command returns (R105). -/
inductive Status where
  /-- `OK(bs)`: the command appended `bs`. -/
  | ok (bs : List Byte)
  /-- `INVALID_OPERAND_VARIANT(slot)`: the command was rejected (R162). -/
  | invalidOperandVariant (slot : Slot)
  /-- `TERMINATED`: the session had ended; the command was not attempted (R108). -/
  | terminated
deriving DecidableEq, Repr

/-- One answer of the block: `READ` gives the image and the fault bit, `ENCODE` a status, `NEW` nothing
(R101, R103). -/
inductive Response where
  | image (bytes : List Byte) (fault : Bool)
  | status (st : Status)
deriving DecidableEq, Repr

/-- The mnemonic of an instruction. -/
def mnemonicOf : Instr → Mnemonic
  | .mwReg .. | .mwImm .. => .mw
  | .lwAddr .. | .lwHl .. => .lw
  | .swAddr .. | .swHl .. => .sw
  | .pushReg .. | .pushImm .. => .push
  | .popReg .. => .pop
  | .ldaAddr .. => .lda
  | .jnzReg .. | .jnzImm .. => .jnz
  | .inbReg .. | .inbImm .. => .inb
  | .outbReg .. | .outbImm .. => .outb
  | .addReg .. | .addImm .. => .add
  | .adcReg .. | .adcImm .. => .adc
  | .andReg .. | .andImm .. => .and
  | .orReg .. | .orImm .. => .or
  | .norReg .. | .norImm .. => .nor
  | .cmpReg .. | .cmpImm .. => .cmp
  | .sbbReg .. | .sbbImm .. => .sbb

/-- Slot 1 of an instruction, as its call is written (R70, R95). -/
def slot1Of : Instr → Operand
  | .mwReg d _ | .mwImm d _ => .reg d
  | .lwAddr d _ | .lwHl d => .reg d
  | .swAddr a _ => .imm16 a
  | .swHl _ => .absent
  | .pushReg r => .reg r
  | .pushImm v => .imm8 v
  | .popReg d => .reg d
  | .ldaAddr a => .imm16 a
  | .jnzReg r => .reg r
  | .jnzImm v => .imm8 v
  | .inbReg d _ | .inbImm d _ => .reg d
  | .outbReg q _ => .reg q
  | .outbImm v _ => .imm8 v
  | .addReg d _ | .addImm d _ => .reg d
  | .adcReg d _ | .adcImm d _ => .reg d
  | .andReg d _ | .andImm d _ => .reg d
  | .orReg d _ | .orImm d _ => .reg d
  | .norReg d _ | .norImm d _ => .reg d
  | .cmpReg l _ | .cmpImm l _ => .reg l
  | .sbbReg d _ | .sbbImm d _ => .reg d

/-- Slot 2 of an instruction; `absent` for a mnemonic with one operand (R70, R104). -/
def slot2Of : Instr → Operand
  | .mwReg _ r => .reg r
  | .mwImm _ v => .imm8 v
  | .lwAddr _ a => .imm16 a
  | .lwHl _ => .absent
  | .swAddr _ r | .swHl r => .reg r
  | .pushReg _ | .pushImm _ => .absent
  | .popReg _ => .absent
  | .ldaAddr _ => .absent
  | .jnzReg _ | .jnzImm _ => .absent
  | .inbReg _ q => .reg q
  | .inbImm _ v => .imm8 v
  | .outbReg _ r | .outbImm _ r => .reg r
  | .addReg _ r => .reg r
  | .addImm _ v => .imm8 v
  | .adcReg _ r => .reg r
  | .adcImm _ v => .imm8 v
  | .andReg _ r => .reg r
  | .andImm _ v => .imm8 v
  | .orReg _ r => .reg r
  | .orImm _ v => .imm8 v
  | .norReg _ r => .reg r
  | .norImm _ v => .imm8 v
  | .cmpReg _ r => .reg r
  | .cmpImm _ v => .imm8 v
  | .sbbReg _ r => .reg r
  | .sbbImm _ v => .imm8 v

/-- The encode command that calls an instruction (R95, R103). -/
def commandOf (i : Instr) : Command := .encode (mnemonicOf i) (slot1Of i) (slot2Of i)

/-- The row of the opcode table an encode command names by its mnemonic and the variants of its
operands (R69, R70), `none` where no row has these variants. Register codes are not checked here. -/
def formOf? : Mnemonic → Operand → Operand → Option Instr
  | .mw, .reg d, .reg r => some (.mwReg d r)
  | .mw, .reg d, .imm8 v => some (.mwImm d v)
  | .lw, .reg d, .imm16 a => some (.lwAddr d a)
  | .lw, .reg d, .absent => some (.lwHl d)
  | .sw, .imm16 a, .reg r => some (.swAddr a r)
  | .sw, .absent, .reg r => some (.swHl r)
  | .push, .reg r, .absent => some (.pushReg r)
  | .push, .imm8 v, .absent => some (.pushImm v)
  | .pop, .reg d, .absent => some (.popReg d)
  | .lda, .imm16 a, .absent => some (.ldaAddr a)
  | .jnz, .reg r, .absent => some (.jnzReg r)
  | .jnz, .imm8 v, .absent => some (.jnzImm v)
  | .inb, .reg d, .reg q => some (.inbReg d q)
  | .inb, .reg d, .imm8 v => some (.inbImm d v)
  | .outb, .reg q, .reg r => some (.outbReg q r)
  | .outb, .imm8 v, .reg r => some (.outbImm v r)
  | .add, .reg d, .reg r => some (.addReg d r)
  | .add, .reg d, .imm8 v => some (.addImm d v)
  | .adc, .reg d, .reg r => some (.adcReg d r)
  | .adc, .reg d, .imm8 v => some (.adcImm d v)
  | .and, .reg d, .reg r => some (.andReg d r)
  | .and, .reg d, .imm8 v => some (.andImm d v)
  | .or, .reg d, .reg r => some (.orReg d r)
  | .or, .reg d, .imm8 v => some (.orImm d v)
  | .nor, .reg d, .reg r => some (.norReg d r)
  | .nor, .reg d, .imm8 v => some (.norImm d v)
  | .cmp, .reg l, .reg r => some (.cmpReg l r)
  | .cmp, .reg l, .imm8 v => some (.cmpImm l v)
  | .sbb, .reg d, .reg r => some (.sbbReg d r)
  | .sbb, .reg d, .imm8 v => some (.sbbImm d v)
  | _, _, _ => none

end Sys2Proof.Machine
end

