-- ==== Sys2Proof/Machine/State.lean ====
section
/-!
DEFINITION. The state of the block. The spec gives it exactly two items, the program image and the
fault flag (10_state.md R26); beside them stand the block's parameters, which no command changes
(70_reset_and_hazards.md R182), and the two streams of the command interface (40_session.md R103).
There is no register file, program counter, flag register or hidden state (R21, R27, R28, R30, R31).
-/

namespace Sys2Proof.Machine

structure State where
  /-- The program image: every byte emitted since the last `new()`, in emission order (R26, R40). The
  byte at index `k` is the element `k` of the list (log entry 1). -/
  image : List Byte
  /-- The fault flag: an invalid-operand-variant error has occurred since the last `new()` (R26, R29). -/
  fault : Bool
  /-- `ERROR_POLICY` and `MAX_IMAGE_LEN`, fixed for the life of the block (R8, R182; log entry 2). -/
  config : Config
  /-- The commands the caller has issued and the block has not taken, the next one first (R103; log
  entry 3). -/
  commands : List Command
  /-- The answers the block has given, the latest last (R103; log entry 3). -/
  responses : List Response
deriving DecidableEq, Repr

/-- Where a step of the block does not exist: the spec's `stuck` (93_implementation_defined.md). This
is not the error of R160, which sets the fault FLAG and goes on. -/
inductive Fault where
  /-- Raised by an encode command whose bytes would make the image longer than a finite
  `MAX_IMAGE_LEN`: no step, no append, fault flag unchanged (R49, I4). Never on this hardware's own
  unbounded parameter. Safe: the model stops where the spec has no step. -/
  | stuckCapacity
  /-- Raised by the bit-level `cmd = 11`, which is no command: no step (R104, I10). Safe: the model
  stops where the spec has no step. -/
  | stuckNoCommand
deriving DecidableEq, Repr

/-- Why an instruction is refused. -/
inductive Refusal where
  /-- Raised by exec's arm of an instruction that has no meaning yet. Safe: nothing is claimed of it.
  No arm of this model raises it. -/
  | notModelled (mnemonic : String)
deriving DecidableEq, Repr

/-- The block at power-up, which is the state `new()` gives (R33, R180): an empty image and a clear
fault flag, with the parameters this hardware takes (R8), no command issued and none answered. -/
def State.reset : State where
  image := []
  fault := false
  config := Config.hardware
  commands := []
  responses := []

end Sys2Proof.Machine
end

