-- ==== Sys2Proof/Machine/Flags.lean ====
section
/-!
DEFINITION. The one flag of the block, `fault` (10_state.md R28, R29), and the test it drives: whether
the encoding session has ended (40_session.md R108). No command computes a condition code.
-/

namespace Sys2Proof.Machine

/-- `fault <- 1` (R162). -/
def State.setFault (s : State) : State := { s with fault := true }

/-- `fault <- 0`, done by `new()` alone (R29, R100). -/
def State.clearFault (s : State) : State := { s with fault := false }

/-- `fault = 1 and ERROR_POLICY = ABORT`: encode commands are answered `TERMINATED` (R102, R108). -/
def State.sessionEnded (s : State) : Bool :=
  s.fault && decide (s.config.errorPolicy = .abort)

end Sys2Proof.Machine
end

