-- ==== Sys2Proof/Machine/Operands.lean ====
section
/-!
DEFINITION. Operands: the acceptance check of every slot (40_session.md R106), the six instruction
formats (30_encoding.md R68) built on the formula for byte 0 (R67), the format multiplexer and the
bit-packing function `Enc` (R69, R71).
-/

namespace Sys2Proof.Machine

/-! ### Acceptance (R106) -/

/-- The code of a `Reg` operand names a register (R106: `x = Reg(r) implies r <= 5`). -/
def acceptReg (c : RegCode) : Bool := (Reg.ofCode? c).isSome

/-- A slot that accepts `{Reg}`. -/
def acceptsReg : Operand → Bool
  | .reg c => acceptReg c
  | .imm8 _ | .imm16 _ | .absent | .malformed => false

/-- A slot that accepts `{Reg, Imm8}`. -/
def acceptsRegImm8 : Operand → Bool
  | .reg c => acceptReg c
  | .imm8 _ => true
  | .imm16 _ | .absent | .malformed => false

/-- A slot that accepts `{Imm16, absent}`. -/
def acceptsAddrOrAbsent : Operand → Bool
  | .imm16 _ | .absent => true
  | .reg _ | .imm8 _ | .malformed => false

/-- A slot that accepts `{Imm16}`. -/
def acceptsAddr : Operand → Bool
  | .imm16 _ => true
  | .reg _ | .imm8 _ | .absent | .malformed => false

/-- A slot that accepts `{absent}`. -/
def acceptsAbsent : Operand → Bool
  | .absent => true
  | .reg _ | .imm8 _ | .imm16 _ | .malformed => false

/-- `Accept(mn, i, x)` (R106). -/
def accept (mn : Mnemonic) (i : Slot) (x : Operand) : Bool :=
  match i, mn with
  | .one, .mw | .one, .lw | .one, .pop | .one, .inb => acceptsReg x
  | .one, .add | .one, .adc | .one, .and | .one, .or => acceptsReg x
  | .one, .nor | .one, .cmp | .one, .sbb => acceptsReg x
  | .one, .sw => acceptsAddrOrAbsent x
  | .one, .push | .one, .jnz | .one, .outb => acceptsRegImm8 x
  | .one, .lda => acceptsAddr x
  | .two, .mw | .two, .inb | .two, .add | .two, .adc => acceptsRegImm8 x
  | .two, .and | .two, .or | .two, .nor | .two, .cmp | .two, .sbb => acceptsRegImm8 x
  | .two, .lw => acceptsAddrOrAbsent x
  | .two, .sw | .two, .outb => acceptsReg x
  | .two, .push | .two, .pop | .two, .lda | .two, .jnz => acceptsAbsent x

/-! ### Bit packing (R67, R68) -/

/-- `byte0 = (class << 4) | (mode << 3) | prim` (R67). -/
def packByte0 (mn : Mnemonic) (mode : Bool) (prim : RegCode) : Byte :=
  (mn.classCode.setWidth 8 <<< 4) ||| (if mode then 0x08 else 0x00) ||| zext8 prim

/-- Format RR: `cccc1ppp 00000sss`. -/
def packRR (mn : Mnemonic) (p r : RegCode) : List Byte := [packByte0 mn true p, zext8 r]

/-- Format RI: `cccc0ppp iiiiiiii`. -/
def packRI (mn : Mnemonic) (p : RegCode) (v : Byte) : List Byte := [packByte0 mn false p, v]

/-- Format R1: `cccc1ppp`. -/
def packR1 (mn : Mnemonic) (p : RegCode) : List Byte := [packByte0 mn true p]

/-- Format I: `cccc0000 iiiiiiii`. -/
def packI (mn : Mnemonic) (v : Byte) : List Byte := [packByte0 mn false 0, v]

/-- Format RA: `cccc0ppp llllllll hhhhhhhh` (low byte first, R43). -/
def packRA (mn : Mnemonic) (p : RegCode) (w : Addr) : List Byte :=
  [packByte0 mn false p, addrLo w, addrHi w]

/-- Format A: `cccc0000 llllllll hhhhhhhh`. -/
def packA (mn : Mnemonic) (w : Addr) : List Byte := [packByte0 mn false 0, addrLo w, addrHi w]

/-! ### The bit-packing function -/

/-- `Enc` for mw, inb and the seven arithmetic mnemonics: slot 1 is the primary register. -/
def encDestSource (mn : Mnemonic) : Operand → Operand → List Byte
  | .reg d, .reg r => packRR mn d r
  | .reg d, .imm8 v => packRI mn d v
  | _, _ => []

/-- `Enc` for push and jnz. -/
def encSingle (mn : Mnemonic) : Operand → List Byte
  | .reg r => packR1 mn r
  | .imm8 v => packI mn v
  | _ => []

/-- `Enc(mn, a, b)` (R71). It is defined by the spec for accepted operands only; elsewhere this
function is the empty list, which no command appends because the acceptance check comes first (R102). -/
def enc (mn : Mnemonic) (a b : Operand) : List Byte :=
  match mn with
  | .mw | .inb | .add | .adc | .and | .or | .nor | .cmp | .sbb => encDestSource mn a b
  | .outb => encDestSource mn b a
  | .lw =>
    match a, b with
    | .reg d, .imm16 w => packRA mn d w
    | .reg d, .absent => packR1 mn d
    | _, _ => []
  | .sw =>
    match a, b with
    | .imm16 w, .reg r => packRA mn r w
    | .absent, .reg r => packR1 mn r
    | _, _ => []
  | .push | .jnz => encSingle mn a
  | .pop =>
    match a with
    | .reg d => packR1 mn d
    | _ => []
  | .lda =>
    match a with
    | .imm16 w => packA mn w
    | _ => []

end Sys2Proof.Machine
end

