-- ==== Sys2Proof/Machine/Ops.lean ====
section
/-!
DEFINITION. The operations every command is built from: the image's one write and its reads
(20_memory.md R40, R41, R48), answering a command, taking the one error (60_exceptions.md R162), the
capacity check (20_memory.md R49), the common encode step (40_session.md R102), taking the next
command of the stream (R103), and the loader's view of the image (20_memory.md R50).

There is no return from the error beside its entry: the spec has none but `new()` (R167), which is
`execNew` in Machine/Session.lean.
-/

namespace Sys2Proof.Machine

/-! ### The program image -/

/-- `Append(bs)`: `image <- image ++ bs` (R11, R41). -/
def State.append (s : State) (bs : List Byte) : State := { s with image := s.image ++ bs }

/-- The image's byte at an index; `none` at and past its end (R40). -/
def State.readByte (s : State) (k : Nat) : Option Byte := s.image[k]?

/-- `MemRead(k, n)`: the bytes `image[k] ... image[k+n-1]` (R11). -/
def State.memRead (s : State) (k n : Nat) : List Byte := (s.image.drop k).take n

/-- Appending `n` bytes would make the image longer than `MAX_IMAGE_LEN` (R49, R102). -/
def State.overflows (s : State) (n : Nat) : Bool :=
  match s.config.maxImageLen with
  | none => false
  | some cap => decide (cap < s.image.length + n)

/-! ### Answers and the error -/

/-- The block answers the command (R103). -/
def State.respond (s : State) (r : Response) : State :=
  { s with responses := s.responses ++ [r] }

/-- `raise InvalidOperandVariant(mn, slot)`: the whole entry of the block's one error (R162, R166).
The image is not written; the fault flag is set; the command ends with the status that names the slot.
The mnemonic is recorded nowhere (R163). -/
def State.raiseInvalidOperand (s : State) (slot : Slot) : State :=
  s.setFault.respond (.status (.invalidOperandVariant slot))

/-- The common encode step (R102), given whether each slot is accepted and the packed bytes. The order
of the checks is R164's. -/
def encodeStep (accept1 accept2 : Bool) (bs : List Byte) (s : State) :
    Host.Outcome State Fault Refusal :=
  if s.sessionEnded then .next (s.respond (.status .terminated))
  else if accept1 = false then .next (s.raiseInvalidOperand .one)
  else if accept2 = false then .next (s.raiseInvalidOperand .two)
  else if s.overflows bs.length then .fault .stuckCapacity
  else .next ((s.append bs).respond (.status (.ok bs)))

/-- `Encode(mn, a, b)` for any mnemonic and any operands (R102), over the acceptance check of R106 and
the bit packing of R71. -/
def encodeCommand (mn : Mnemonic) (a b : Operand) (s : State) :
    Host.Outcome State Fault Refusal :=
  encodeStep (accept mn .one a) (accept mn .two b) (enc mn a b) s

/-! ### The command stream -/

/-- The next command and the state without it; `none` when the caller has issued none (R103). -/
def State.takeCommand (s : State) : Option (Command × State) :=
  match s.commands with
  | [] => none
  | c :: rest => some (c, { s with commands := rest })

/-- The caller issues one more command, behind those already issued (R53, R103). -/
def State.issue (s : State) (c : Command) : State := { s with commands := s.commands ++ [c] }

/-- A command placed where the block takes its next one from. -/
def State.putNext (s : State) (c : Command) : State := { s with commands := c :: s.commands }

/-! ### The loader's view (outside the block) -/

/-- Addressed bytes, as a loader or a memory holds them. -/
abbrev Memory := List Host.Cell

/-- The canonical form of addressed bytes: addresses strictly rising. An address not listed holds
nothing. -/
def Memory.wf : Memory → Bool
  | [] => true
  | [_] => true
  | c :: d :: m => decide (c.1 < d.1) && Memory.wf (d :: m)

/-- A loader that places the image puts `image[k]` at address `LOAD_BASE + k` (R50). With base 0 it is
the image keyed by its own indexes (R40). -/
def placeAt (base : Nat) : List Byte → Memory
  | [] => []
  | b :: bs => (base, b) :: placeAt (base + 1) bs

end Sys2Proof.Machine
end

