-- ==== Sys2Proof/Machine/Alu.lean ====
section
/-!
DEFINITION. The encode commands of classes 0x9 to 0xF: add, adc, and, or, nor, cmp, sbb (43_alu.md). All seven
share the encoding of R140; the block computes no arithmetic.
Each meaning is the common encode step with the acceptance of its own slots and the packing of its own
row. A slot whose variant the row already fixes to an accepted one has only its register code left to
check.
-/

namespace Sys2Proof.Machine

/-- `add(dest, Reg(src))`: format RR (R140, R141). -/
def execAddReg (dest src : RegCode) (s : State) : Host.Outcome State Fault Refusal :=
  encodeStep (acceptReg dest) (acceptReg src) (packRR .add dest src) s

/-- `add(dest, Imm8(v))`: format RI (R140, R141). -/
def execAddImm (dest : RegCode) (v : Byte) (s : State) : Host.Outcome State Fault Refusal :=
  encodeStep (acceptReg dest) true (packRI .add dest v) s

/-- `adc(dest, Reg(src))`: format RR (R140, R142). -/
def execAdcReg (dest src : RegCode) (s : State) : Host.Outcome State Fault Refusal :=
  encodeStep (acceptReg dest) (acceptReg src) (packRR .adc dest src) s

/-- `adc(dest, Imm8(v))`: format RI (R140, R142). -/
def execAdcImm (dest : RegCode) (v : Byte) (s : State) : Host.Outcome State Fault Refusal :=
  encodeStep (acceptReg dest) true (packRI .adc dest v) s

/-- `and(dest, Reg(src))`: format RR (R140, R143). -/
def execAndReg (dest src : RegCode) (s : State) : Host.Outcome State Fault Refusal :=
  encodeStep (acceptReg dest) (acceptReg src) (packRR .and dest src) s

/-- `and(dest, Imm8(v))`: format RI (R140, R143). -/
def execAndImm (dest : RegCode) (v : Byte) (s : State) : Host.Outcome State Fault Refusal :=
  encodeStep (acceptReg dest) true (packRI .and dest v) s

/-- `or(dest, Reg(src))`: format RR (R140, R144). -/
def execOrReg (dest src : RegCode) (s : State) : Host.Outcome State Fault Refusal :=
  encodeStep (acceptReg dest) (acceptReg src) (packRR .or dest src) s

/-- `or(dest, Imm8(v))`: format RI (R140, R144). -/
def execOrImm (dest : RegCode) (v : Byte) (s : State) : Host.Outcome State Fault Refusal :=
  encodeStep (acceptReg dest) true (packRI .or dest v) s

/-- `nor(dest, Reg(src))`: format RR (R140, R145). -/
def execNorReg (dest src : RegCode) (s : State) : Host.Outcome State Fault Refusal :=
  encodeStep (acceptReg dest) (acceptReg src) (packRR .nor dest src) s

/-- `nor(dest, Imm8(v))`: format RI (R140, R145). -/
def execNorImm (dest : RegCode) (v : Byte) (s : State) : Host.Outcome State Fault Refusal :=
  encodeStep (acceptReg dest) true (packRI .nor dest v) s

/-- `cmp(left, Reg(right))`: format RR (R140, R146). -/
def execCmpReg (left right : RegCode) (s : State) : Host.Outcome State Fault Refusal :=
  encodeStep (acceptReg left) (acceptReg right) (packRR .cmp left right) s

/-- `cmp(left, Imm8(v))`: format RI (R140, R146). -/
def execCmpImm (left : RegCode) (v : Byte) (s : State) : Host.Outcome State Fault Refusal :=
  encodeStep (acceptReg left) true (packRI .cmp left v) s

/-- `sbb(dest, Reg(src))`: format RR (R140, R147). -/
def execSbbReg (dest src : RegCode) (s : State) : Host.Outcome State Fault Refusal :=
  encodeStep (acceptReg dest) (acceptReg src) (packRR .sbb dest src) s

/-- `sbb(dest, Imm8(v))`: format RI (R140, R147). -/
def execSbbImm (dest : RegCode) (v : Byte) (s : State) : Host.Outcome State Fault Refusal :=
  encodeStep (acceptReg dest) true (packRI .sbb dest v) s

end Sys2Proof.Machine
end

