-- ==== Sys2Proof/Machine/JumpIo.lean ====
section
/-!
DEFINITION. The encode commands of classes 0x6 to 0x8: jnz, inb, outb (42_jump_io.md).
Each meaning is the common encode step with the acceptance of its own slots and the packing of its own
row. A slot whose variant the row already fixes to an accepted one has only its register code left to
check.
-/

namespace Sys2Proof.Machine

/-- `jnz(Reg(src))`: format R1 (R130). -/
def execJnzReg (src : RegCode) (s : State) : Host.Outcome State Fault Refusal :=
  encodeStep (acceptReg src) true (packR1 .jnz src) s

/-- `jnz(Imm8(v))`: format I (R130). -/
def execJnzImm (v : Byte) (s : State) : Host.Outcome State Fault Refusal :=
  encodeStep true true (packI .jnz v) s

/-- `inb(dest, Reg(port))`: format RR (R131). -/
def execInbReg (dest port : RegCode) (s : State) : Host.Outcome State Fault Refusal :=
  encodeStep (acceptReg dest) (acceptReg port) (packRR .inb dest port) s

/-- `inb(dest, Imm8(port))`: format RI (R131). -/
def execInbImm (dest : RegCode) (port : Byte) (s : State) : Host.Outcome State Fault Refusal :=
  encodeStep (acceptReg dest) true (packRI .inb dest port) s

/-- `outb(Reg(port), src)`: format RR; the source is the primary register and the port fills byte 1 (R132). -/
def execOutbReg (port src : RegCode) (s : State) : Host.Outcome State Fault Refusal :=
  encodeStep (acceptReg port) (acceptReg src) (packRR .outb src port) s

/-- `outb(Imm8(port), src)`: format RI with the source as primary register (R132). -/
def execOutbImm (port : Byte) (src : RegCode) (s : State) : Host.Outcome State Fault Refusal :=
  encodeStep true (acceptReg src) (packRI .outb src port) s

end Sys2Proof.Machine
end

