-- ==== Sys2Proof/Machine/MoveMemoryStack.lean ====
section
/-!
DEFINITION. The encode commands of classes 0x0 to 0x5: mw, lw, sw, push, pop, lda (41_move_memory_stack.md).
Each meaning is the common encode step with the acceptance of its own slots and the packing of its own
row. A slot whose variant the row already fixes to an accepted one has only its register code left to
check.
-/

namespace Sys2Proof.Machine

/-- `mw(dest, Reg(src))`: format RR (R110). -/
def execMwReg (dest src : RegCode) (s : State) : Host.Outcome State Fault Refusal :=
  encodeStep (acceptReg dest) (acceptReg src) (packRR .mw dest src) s

/-- `mw(dest, Imm8(v))`: format RI (R110). -/
def execMwImm (dest : RegCode) (v : Byte) (s : State) : Host.Outcome State Fault Refusal :=
  encodeStep (acceptReg dest) true (packRI .mw dest v) s

/-- `lw(dest, Imm16(a))`: format RA (R111). -/
def execLwAddr (dest : RegCode) (a : Addr) (s : State) : Host.Outcome State Fault Refusal :=
  encodeStep (acceptReg dest) true (packRA .lw dest a) s

/-- `lw(dest, absent)`: format R1, implicit-HL (R111). -/
def execLwHl (dest : RegCode) (s : State) : Host.Outcome State Fault Refusal :=
  encodeStep (acceptReg dest) true (packR1 .lw dest) s

/-- `sw(Imm16(a), src)`: format RA with the source as primary register (R112). -/
def execSwAddr (a : Addr) (src : RegCode) (s : State) : Host.Outcome State Fault Refusal :=
  encodeStep true (acceptReg src) (packRA .sw src a) s

/-- `sw(absent, src)`: format R1, implicit-HL (R112). -/
def execSwHl (src : RegCode) (s : State) : Host.Outcome State Fault Refusal :=
  encodeStep true (acceptReg src) (packR1 .sw src) s

/-- `push(Reg(src))`: format R1 (R113). -/
def execPushReg (src : RegCode) (s : State) : Host.Outcome State Fault Refusal :=
  encodeStep (acceptReg src) true (packR1 .push src) s

/-- `push(Imm8(v))`: format I (R113). -/
def execPushImm (v : Byte) (s : State) : Host.Outcome State Fault Refusal :=
  encodeStep true true (packI .push v) s

/-- `pop(dest)`: format R1 (R114). -/
def execPopReg (dest : RegCode) (s : State) : Host.Outcome State Fault Refusal :=
  encodeStep (acceptReg dest) true (packR1 .pop dest) s

/-- `lda(Imm16(a))`: format A (R115). -/
def execLdaAddr (a : Addr) (s : State) : Host.Outcome State Fault Refusal :=
  encodeStep true true (packA .lda a) s

end Sys2Proof.Machine
end

