-- ==== Sys2Proof/Machine/Dispatch.lean ====
section
/-!
DEFINITION. The dispatch of an instruction to its meaning: one arm per row of spec/opcode_table.json.
-/

namespace Sys2Proof.Machine

def exec (i : Instr) (s : State) : Host.Outcome State Fault Refusal :=
  match i with
  | .mwReg d r => Sys2Proof.Machine.execMwReg d r s
  | .mwImm d v => Sys2Proof.Machine.execMwImm d v s
  | .lwAddr d a => Sys2Proof.Machine.execLwAddr d a s
  | .lwHl d => Sys2Proof.Machine.execLwHl d s
  | .swAddr a r => Sys2Proof.Machine.execSwAddr a r s
  | .swHl r => Sys2Proof.Machine.execSwHl r s
  | .pushReg r => Sys2Proof.Machine.execPushReg r s
  | .pushImm v => Sys2Proof.Machine.execPushImm v s
  | .popReg d => Sys2Proof.Machine.execPopReg d s
  | .ldaAddr a => Sys2Proof.Machine.execLdaAddr a s
  | .jnzReg r => Sys2Proof.Machine.execJnzReg r s
  | .jnzImm v => Sys2Proof.Machine.execJnzImm v s
  | .inbReg d q => Sys2Proof.Machine.execInbReg d q s
  | .inbImm d v => Sys2Proof.Machine.execInbImm d v s
  | .outbReg q r => Sys2Proof.Machine.execOutbReg q r s
  | .outbImm v r => Sys2Proof.Machine.execOutbImm v r s
  | .addReg d r => Sys2Proof.Machine.execAddReg d r s
  | .addImm d v => Sys2Proof.Machine.execAddImm d v s
  | .adcReg d r => Sys2Proof.Machine.execAdcReg d r s
  | .adcImm d v => Sys2Proof.Machine.execAdcImm d v s
  | .andReg d r => Sys2Proof.Machine.execAndReg d r s
  | .andImm d v => Sys2Proof.Machine.execAndImm d v s
  | .orReg d r => Sys2Proof.Machine.execOrReg d r s
  | .orImm d v => Sys2Proof.Machine.execOrImm d v s
  | .norReg d r => Sys2Proof.Machine.execNorReg d r s
  | .norImm d v => Sys2Proof.Machine.execNorImm d v s
  | .cmpReg d r => Sys2Proof.Machine.execCmpReg d r s
  | .cmpImm d v => Sys2Proof.Machine.execCmpImm d v s
  | .sbbReg d r => Sys2Proof.Machine.execSbbReg d r s
  | .sbbImm d v => Sys2Proof.Machine.execSbbImm d v s

end Sys2Proof.Machine
end

