-- ==== Sys2Proof/Machine/Session.lean ====
section
/-!
DEFINITION. What a command of the stream does (40_session.md R100 to R103): `new()`, `bytes()`, and an
encode command, which runs the row of the opcode table it names, or the common step where its operand
variants name no row.
-/

namespace Sys2Proof.Machine

/-- `new()`: `image <- []`, `fault <- 0` (R100). The parameters and the answers already given are not
the block's to discard. -/
def execNew (s : State) : Host.Outcome State Fault Refusal :=
  .next { s.clearFault with image := [] }

/-- `bytes()`: answers a copy of the image and the fault bit; no effect on the block's state (R101). -/
def execBytes (s : State) : Host.Outcome State Fault Refusal :=
  .next (s.respond (.image s.image s.fault))

/-- `ENCODE(mn, a, b)`. Where the operand variants are those of a row of the opcode table, that row's
meaning runs. Where they are not, some slot is not accepted, and the common step of R102 says which. -/
def execEncode (mn : Mnemonic) (a b : Operand) (s : State) : Host.Outcome State Fault Refusal :=
  match formOf? mn a b with
  | some i => exec i s
  | none => encodeCommand mn a b s

/-- One command, the whole of its effect (R53, R103). `cmd = 11` is no command and has no step
(R104, I10). -/
def runCommand (c : Command) (s : State) : Host.Outcome State Fault Refusal :=
  match c with
  | .new => execNew s
  | .read => execBytes s
  | .encode mn a b => execEncode mn a b s
  | .reserved => .fault .stuckNoCommand

/-- The instruction a table word stands for, as the command that calls it; a word the decoder answers
`INVALID` for stands for no command. -/
def commandOfWord (nbits w : Nat) : Command :=
  match decodeTableWord nbits w with
  | some i => commandOf i
  | none => .reserved

end Sys2Proof.Machine
end

