-- ==== Sys2Proof/Machine/Wire.lean ====
section
/-!
DEFINITION. The bit-level packaging of a command and of the answer to an encode command
(40_session.md R104, decision D3). It is a layer over the transaction interface, whose semantics do not
depend on it.
-/

namespace Sys2Proof.Machine

/-- The fields of a command on wires (R104). -/
structure WireCommand where
  cmd : BitVec 2
  op : BitVec 4
  aTag : BitVec 2
  aVal : BitVec 16
  bTag : BitVec 2
  bVal : BitVec 16
deriving DecidableEq, Repr

/-- The answer to an encode command on wires (R104). -/
structure WireReply where
  status : BitVec 2
  errSlot : BitVec 1
  n : BitVec 2
  out : BitVec 24
deriving DecidableEq, Repr

/-- The operand in a slot: tag 00 `absent`, 01 `Reg`, 10 `Imm8`, 11 `Imm16`. A payload with bits above
its variant's width, or not 0 under `absent`, makes the slot not well-formed. A `Reg` payload of 6 or 7
stays a register code and fails the acceptance check as one (R23, R106). -/
def unpackSlot (tag : BitVec 2) (val : BitVec 16) : Operand :=
  match tag.toNat with
  | 0 => if val = 0 then .absent else .malformed
  | 1 => if val.toNat < 8 then .reg (val.setWidth 3) else .malformed
  | 2 => if val.toNat < 256 then .imm8 (val.setWidth 8) else .malformed
  | _ => .imm16 val

/-- The command on the wires: `cmd` 00 `NEW`, 01 `READ`, 10 `ENCODE` with `op` the mnemonic's class,
11 no command (R104). -/
def unpackCommand (w : WireCommand) : Command :=
  match w.cmd.toNat with
  | 0 => .new
  | 1 => .read
  | 2 => .encode (Mnemonic.ofClass w.op) (unpackSlot w.aTag w.aVal) (unpackSlot w.bTag w.bVal)
  | _ => .reserved

/-- The tag of an operand. -/
def tagOf : Operand → BitVec 2
  | .absent => 0
  | .reg _ => 1
  | .imm8 _ => 2
  | .imm16 _ => 3
  | .malformed => 0

/-- The payload of an operand. `malformed` has no payload of its own; it packs to one that is not
well-formed under the tag `absent`. -/
def valOf : Operand → BitVec 16
  | .absent => 0
  | .reg c => c.setWidth 16
  | .imm8 v => v.setWidth 16
  | .imm16 w => w
  | .malformed => 1

/-- A command as it is put on the wires; the fields a command ignores are 0. -/
def packCommand : Command → WireCommand
  | .new => { cmd := 0, op := 0, aTag := 0, aVal := 0, bTag := 0, bVal := 0 }
  | .read => { cmd := 1, op := 0, aTag := 0, aVal := 0, bTag := 0, bVal := 0 }
  | .encode mn a b =>
    { cmd := 2, op := mn.classCode, aTag := tagOf a, aVal := valOf a, bTag := tagOf b, bVal := valOf b }
  | .reserved => { cmd := 3, op := 0, aTag := 0, aVal := 0, bTag := 0, bVal := 0 }

/-- The appended bytes in `out`: byte 0 in bits 7:0, byte 1 in bits 15:8, byte 2 in bits 23:16, unused
bits 0 (R104). -/
def packOut (bs : List Byte) : BitVec 24 :=
  bs.foldr (fun b acc => (acc <<< 8) ||| b.setWidth 24) 0

/-- The status of an encode command on the wires (R104). -/
def packStatus : Status → WireReply
  | .ok bs => { status := 0, errSlot := 0, n := BitVec.ofNat 2 bs.length, out := packOut bs }
  | .invalidOperandVariant .one => { status := 1, errSlot := 0, n := 0, out := 0 }
  | .invalidOperandVariant .two => { status := 1, errSlot := 1, n := 0, out := 0 }
  | .terminated => { status := 2, errSlot := 0, n := 0, out := 0 }

/-- The caller drives the wires: the command they carry joins the stream. -/
def State.drive (s : State) (w : WireCommand) : State := s.issue (unpackCommand w)

end Sys2Proof.Machine
end

