-- ==== Sys2Proof/Machine/Step.lean ====
section
/-!
DEFINITION. One step: the block takes the next command of the stream and runs it whole (20_memory.md
R53, 40_session.md R103). With no command issued it holds its state unchanged (60_exceptions.md R175).
-/

namespace Sys2Proof.Machine

def step (s : State) : Host.Outcome State Fault Refusal :=
  match s.takeCommand with
  | none => .next s
  | some (c, t) => runCommand c t

/-- The state in which the block's next command is the call of the instruction a table word stands for
(log entry 4). -/
def State.withFetchWord (s : State) (nbits w : Nat) : State := s.putNext (commandOfWord nbits w)

end Sys2Proof.Machine
end

