-- ==== Sys2Proof/Safety.lean ====
section
/-!
DEFINITION. The words the statements use: when a session is open and has room, what a state is after
each kind of answer, which operand is of which variant, which byte 0 is produced and how long its
instruction is, and the two properties of the image every step keeps.
-/

namespace Sys2Proof.Machine

/-! ### When an encode command can append -/

/-- The session has not ended: no error yet, or the policy is `REPORT` (R108). -/
def State.Open (s : State) : Prop := ¬ (s.fault = true ∧ s.config.errorPolicy = .abort)

/-- `n` more bytes fit under `MAX_IMAGE_LEN`; always true of an unbounded image (R49). -/
def State.HasRoom (s : State) (n : Nat) : Prop :=
  ∀ cap, s.config.maxImageLen = some cap → s.image.length + n ≤ cap

/-! ### The states after an encode command -/

/-- After `OK(bs)`: `bs` at the end of the image, the status answered, all else as before (R102). -/
def State.afterOk (s : State) (bs : List Byte) : State :=
  { s with image := s.image ++ bs, responses := s.responses ++ [.status (.ok bs)] }

/-- After `INVALID_OPERAND_VARIANT(slot)`: the fault flag set, the status answered, all else as before
(R162). -/
def State.afterReject (s : State) (slot : Slot) : State :=
  { s with fault := true, responses := s.responses ++ [.status (.invalidOperandVariant slot)] }

/-- After `TERMINATED`: the status answered, all else as before (R108). -/
def State.afterTerminated (s : State) : State :=
  { s with responses := s.responses ++ [.status .terminated] }

/-! ### Operand variants (R25) -/

end Sys2Proof.Machine

namespace Sys2Proof

/-- A register operand that names one of the six registers. -/
def Operand.IsReg (x : Operand) : Prop := ∃ c : RegCode, c.toNat ≤ 5 ∧ x = .reg c

/-- An 8-bit immediate. -/
def Operand.IsImm8 (x : Operand) : Prop := ∃ v : Byte, x = .imm8 v

/-- A 16-bit immediate. -/
def Operand.IsImm16 (x : Operand) : Prop := ∃ w : Addr, x = .imm16 w

/-! ### Byte 0 (R80, R81) -/

/-- The produced byte-0 values, column two of the table of R80. -/
def producedByte0 (b : Byte) : Bool :=
  let n := b.toNat
  let p := n % 8
  match n / 16 with
  | 0x3 | 0x6 => decide (n % 16 = 0) || (decide (8 ≤ n % 16) && decide (p ≤ 5))
  | 0x4 => decide (8 ≤ n % 16) && decide (p ≤ 5)
  | 0x5 => decide (n % 16 = 0)
  | _ => decide (p ≤ 5)

/-- `Len(b0)` (R81). -/
def lengthOfByte0 (b : Byte) : Nat :=
  match b.toNat / 16, decide (8 ≤ b.toNat % 16) with
  | 0x1, false | 0x2, false => 3
  | 0x1, true | 0x2, true => 1
  | 0x3, false | 0x6, false => 2
  | 0x3, true | 0x6, true => 1
  | 0x4, _ => 1
  | 0x5, _ => 3
  | _, _ => 2

end Sys2Proof

namespace Sys2Proof.Machine

/-! ### What is kept -/

/-- The image is a whole number of produced instructions: the reference decoder reads it to its end
(R92). -/
def State.Decodable (s : State) : Prop := ∃ is, decodeImage s.image = .ok is

/-- The image is no longer than `MAX_IMAGE_LEN` (R26). -/
def State.WithinCapacity (s : State) : Prop :=
  ∀ cap, s.config.maxImageLen = some cap → s.image.length ≤ cap

/-- The bytes of the `OK` statuses among some answers, in order (R32). -/
def okBytes : List Response → List Byte
  | [] => []
  | .status (.ok bs) :: rs => bs ++ okBytes rs
  | _ :: rs => okBytes rs

/-- The answers of a sequence of accepted instructions. -/
def okResponses (is : List Instr) : List Response := is.map (fun i => .status (.ok (encode i)))

/-! ### The rule of a mnemonic with a register and a register-or-immediate operand -/

/-- R110, R131 and R140: slot 1 is the primary register, slot 2 a register (RR, mode 1) or an 8-bit
immediate (RI, mode 0); `top` is the class in bits 7:4 of a byte. Slot 1 is checked before slot 2. -/
def DestSourceRule (mn : Mnemonic) (top : Byte) (mkReg : RegCode → RegCode → Instr)
    (mkImm : RegCode → Byte → Instr) : Prop :=
  ∀ s : State, s.Open →
    (∀ d r : RegCode, d.toNat ≤ 5 → r.toNat ≤ 5 → s.HasRoom 2 →
      runCommand (.encode mn (.reg d) (.reg r)) s = exec (mkReg d r) s ∧
      exec (mkReg d r) s = .next (s.afterOk [top ||| 0x08 ||| d.setWidth 8, r.setWidth 8])) ∧
    (∀ (d : RegCode) (v : Byte), d.toNat ≤ 5 → s.HasRoom 2 →
      runCommand (.encode mn (.reg d) (.imm8 v)) s = exec (mkImm d v) s ∧
      exec (mkImm d v) s = .next (s.afterOk [top ||| d.setWidth 8, v])) ∧
    (∀ a b : Operand, ¬ a.IsReg → runCommand (.encode mn a b) s = .next (s.afterReject .one)) ∧
    (∀ a b : Operand, a.IsReg → ¬ b.IsReg → ¬ b.IsImm8 →
      runCommand (.encode mn a b) s = .next (s.afterReject .two))

end Sys2Proof.Machine
end

