-- ==== Sys2Proof/Certificates/Slice0/Obligations.lean ====
section
/-!
DEFINITION. The statements for the provers. Each docstring names the rule or the spec section it
formalises; where a clause rests on a choice of the spec marked as its own (a decision D<n> of
92_eei_decisions.md, or a derived rule) or on a log entry of this model, the docstring says so.
-/

open Sys2Proof Sys2Proof.Machine

/-! ### Session commands and reset -/

/-- `new()` on any state leaves the empty image and a clear fault flag, which is what reset holds
(10_state.md section 4; 40_session.md section 1). That it may be issued on a used block, and that reset is
the power-up state, is the spec's decision D20. That the parameters, the waiting commands and the
answers given stay as they were is the model's reading (log entry 8, DEDUCED). -/
def Obligations.NewGivesTheResetState : Prop :=
  State.reset.image = [] ∧ State.reset.fault = false ∧
  ∀ s : State, runCommand .new s =
    .next { s with image := State.reset.image, fault := State.reset.fault }

/-- `bytes()` answers all of the image with the fault flag, at any time, and changes nothing else
(40_session.md section 1; 20_memory.md section 3). The fault flag beside the bytes is the spec's decision D6,
reading after an error its decision D18. That every `READ` is answered with both is the model's reading
(log entry 13, DEDUCED), and that the answer joins a stream in State is its choice (log entry 3). -/
def Obligations.BytesReadsWithoutSideEffect : Prop :=
  ∀ s : State, runCommand .read s =
    .next { s with responses := s.responses ++ [.image s.image s.fault] }

/-- R175: with no command issued the block holds its state. That a step without a command is this step
is the model's choice (log entry 3). -/
def Obligations.IdleBlockHoldsItsState : Prop :=
  ∀ s : State, s.commands = [] → step s = .next s

/-- R53, R103: a step takes the caller's next command, and no other, and runs it whole; when that
command is the call of an instruction, the step is exec of the instruction on the state whose stream
has moved past it. The stream in State is the model's (log entry 3). -/
def Obligations.StepRunsTheNextCommand : Prop :=
  (∀ (s : State) (c : Command) (rest : List Command),
    step { s with commands := c :: rest } = runCommand c { s with commands := rest }) ∧
  (∀ (s : State) (i : Instr) (rest : List Command),
    step { s with commands := commandOf i :: rest } = exec i { s with commands := rest })

/-- A table word that decodes to an instruction is that instruction's next step (log entries 4, 5). -/
def Obligations.StepRunsTheFetchedWord : Prop :=
  ∀ (s : State) (nbits w : Nat) (i : Instr), decodeTableWord nbits w = some i →
    step (s.withFetchWord nbits w) = exec i s

/-! ### The mnemonics -/

/-- R110. -/
def Obligations.MwEncodesOrRejects : Prop := DestSourceRule .mw 0x00 .mwReg .mwImm

/-- R111. -/
def Obligations.LwEncodesOrRejects : Prop :=
  ∀ s : State, s.Open →
    (∀ (d : RegCode) (w : Addr), d.toNat ≤ 5 → s.HasRoom 3 →
      runCommand (.encode .lw (.reg d) (.imm16 w)) s = exec (.lwAddr d w) s ∧
      exec (.lwAddr d w) s =
        .next (s.afterOk [0x10 ||| d.setWidth 8, w.extractLsb' 0 8, w.extractLsb' 8 8])) ∧
    (∀ d : RegCode, d.toNat ≤ 5 → s.HasRoom 1 →
      runCommand (.encode .lw (.reg d) .absent) s = exec (.lwHl d) s ∧
      exec (.lwHl d) s = .next (s.afterOk [0x18 ||| d.setWidth 8])) ∧
    (∀ a b : Operand, ¬ a.IsReg → runCommand (.encode .lw a b) s = .next (s.afterReject .one)) ∧
    (∀ a b : Operand, a.IsReg → ¬ b.IsImm16 → b ≠ .absent →
      runCommand (.encode .lw a b) s = .next (s.afterReject .two))

/-- R112: the address first, the register second, the register in byte 0. -/
def Obligations.SwEncodesOrRejects : Prop :=
  ∀ s : State, s.Open →
    (∀ (w : Addr) (r : RegCode), r.toNat ≤ 5 → s.HasRoom 3 →
      runCommand (.encode .sw (.imm16 w) (.reg r)) s = exec (.swAddr w r) s ∧
      exec (.swAddr w r) s =
        .next (s.afterOk [0x20 ||| r.setWidth 8, w.extractLsb' 0 8, w.extractLsb' 8 8])) ∧
    (∀ r : RegCode, r.toNat ≤ 5 → s.HasRoom 1 →
      runCommand (.encode .sw .absent (.reg r)) s = exec (.swHl r) s ∧
      exec (.swHl r) s = .next (s.afterOk [0x28 ||| r.setWidth 8])) ∧
    (∀ a b : Operand, ¬ a.IsImm16 → a ≠ .absent →
      runCommand (.encode .sw a b) s = .next (s.afterReject .one)) ∧
    (∀ a b : Operand, (a.IsImm16 ∨ a = .absent) → ¬ b.IsReg →
      runCommand (.encode .sw a b) s = .next (s.afterReject .two))

/-- R113 and R130: push and jnz, a register in byte 0 (mode 1) or an immediate in byte 1 (mode 0, bits
2:0 of byte 0 zero); the second slot must be absent. -/
def Obligations.PushAndJnzEncodeOrReject : Prop :=
  ∀ s : State, s.Open →
    (∀ r : RegCode, r.toNat ≤ 5 → s.HasRoom 1 →
      runCommand (.encode .push (.reg r) .absent) s = exec (.pushReg r) s ∧
      exec (.pushReg r) s = .next (s.afterOk [0x38 ||| r.setWidth 8]) ∧
      runCommand (.encode .jnz (.reg r) .absent) s = exec (.jnzReg r) s ∧
      exec (.jnzReg r) s = .next (s.afterOk [0x68 ||| r.setWidth 8])) ∧
    (∀ v : Byte, s.HasRoom 2 →
      runCommand (.encode .push (.imm8 v) .absent) s = exec (.pushImm v) s ∧
      exec (.pushImm v) s = .next (s.afterOk [0x30, v]) ∧
      runCommand (.encode .jnz (.imm8 v) .absent) s = exec (.jnzImm v) s ∧
      exec (.jnzImm v) s = .next (s.afterOk [0x60, v])) ∧
    (∀ mn ∈ [Mnemonic.push, Mnemonic.jnz], ∀ a b : Operand, ¬ a.IsReg → ¬ a.IsImm8 →
      runCommand (.encode mn a b) s = .next (s.afterReject .one)) ∧
    (∀ mn ∈ [Mnemonic.push, Mnemonic.jnz], ∀ a b : Operand, (a.IsReg ∨ a.IsImm8) → b ≠ .absent →
      runCommand (.encode mn a b) s = .next (s.afterReject .two))

/-- R114: pop has the register form only. -/
def Obligations.PopEncodesOrRejects : Prop :=
  ∀ s : State, s.Open →
    (∀ d : RegCode, d.toNat ≤ 5 → s.HasRoom 1 →
      runCommand (.encode .pop (.reg d) .absent) s = exec (.popReg d) s ∧
      exec (.popReg d) s = .next (s.afterOk [0x48 ||| d.setWidth 8])) ∧
    (∀ a b : Operand, ¬ a.IsReg → runCommand (.encode .pop a b) s = .next (s.afterReject .one)) ∧
    (∀ a b : Operand, a.IsReg → b ≠ .absent →
      runCommand (.encode .pop a b) s = .next (s.afterReject .two))

/-- R115: lda takes a 16-bit address and has no implicit form; that an omitted address is rejected is
the spec's decision D23. -/
def Obligations.LdaEncodesOrRejects : Prop :=
  ∀ s : State, s.Open →
    (∀ w : Addr, s.HasRoom 3 →
      runCommand (.encode .lda (.imm16 w) .absent) s = exec (.ldaAddr w) s ∧
      exec (.ldaAddr w) s = .next (s.afterOk [0x50, w.extractLsb' 0 8, w.extractLsb' 8 8])) ∧
    (∀ a b : Operand, ¬ a.IsImm16 → runCommand (.encode .lda a b) s = .next (s.afterReject .one)) ∧
    (∀ a b : Operand, a.IsImm16 → b ≠ .absent →
      runCommand (.encode .lda a b) s = .next (s.afterReject .two))

/-- R131. -/
def Obligations.InbEncodesOrRejects : Prop := DestSourceRule .inb 0x70 .inbReg .inbImm

/-- R132: the port first, the source register second; the source is in byte 0 and the port in byte 1. -/
def Obligations.OutbEncodesOrRejects : Prop :=
  ∀ s : State, s.Open →
    (∀ q r : RegCode, q.toNat ≤ 5 → r.toNat ≤ 5 → s.HasRoom 2 →
      runCommand (.encode .outb (.reg q) (.reg r)) s = exec (.outbReg q r) s ∧
      exec (.outbReg q r) s = .next (s.afterOk [0x88 ||| r.setWidth 8, q.setWidth 8])) ∧
    (∀ (v : Byte) (r : RegCode), r.toNat ≤ 5 → s.HasRoom 2 →
      runCommand (.encode .outb (.imm8 v) (.reg r)) s = exec (.outbImm v r) s ∧
      exec (.outbImm v r) s = .next (s.afterOk [0x80 ||| r.setWidth 8, v])) ∧
    (∀ a b : Operand, ¬ a.IsReg → ¬ a.IsImm8 →
      runCommand (.encode .outb a b) s = .next (s.afterReject .one)) ∧
    (∀ a b : Operand, (a.IsReg ∨ a.IsImm8) → ¬ b.IsReg →
      runCommand (.encode .outb a b) s = .next (s.afterReject .two))

/-- R140 with R141 to R147: the seven arithmetic mnemonics share the encoding, under classes 0x9 to
0xF. -/
def Obligations.AluEncodesOrRejects : Prop :=
  DestSourceRule .add 0x90 .addReg .addImm ∧
  DestSourceRule .adc 0xA0 .adcReg .adcImm ∧
  DestSourceRule .and 0xB0 .andReg .andImm ∧
  DestSourceRule .or 0xC0 .orReg .orImm ∧
  DestSourceRule .nor 0xD0 .norReg .norImm ∧
  DestSourceRule .cmp 0xE0 .cmpReg .cmpImm ∧
  DestSourceRule .sbb 0xF0 .sbbReg .sbbImm

/-! ### The common encode step and its checks -/

/-- What an encode command does with any mnemonic and any two operands: the common encode step
(40_session.md section 1, the pseudocode of R102). The order of its checks is the spec's decision D19. A
command that does not fit has no step (20_memory.md section 3, decision D8), and that this is the outcome
`stuckCapacity` is the model's choice (log entry 7, DESIGN CHOICE). -/
def Obligations.EncodeCommandIsTheCommonStep : Prop :=
  ∀ (mn : Mnemonic) (a b : Operand) (s : State),
    (¬ s.Open → runCommand (.encode mn a b) s = .next s.afterTerminated) ∧
    (s.Open → accept mn .one a = false →
      runCommand (.encode mn a b) s = .next (s.afterReject .one)) ∧
    (s.Open → accept mn .one a = true → accept mn .two b = false →
      runCommand (.encode mn a b) s = .next (s.afterReject .two)) ∧
    (s.Open → accept mn .one a = true → accept mn .two b = true →
      ¬ s.HasRoom (enc mn a b).length → runCommand (.encode mn a b) s = .fault .stuckCapacity) ∧
    (s.Open → accept mn .one a = true → accept mn .two b = true →
      s.HasRoom (enc mn a b).length →
      runCommand (.encode mn a b) s = .next (s.afterOk (enc mn a b)))

/-- R106: the two columns of accepted variants, whatever the operand. -/
def Obligations.AcceptanceFollowsTheTable : Prop :=
  (∀ mn ∈ [Mnemonic.mw, .lw, .pop, .inb, .add, .adc, .and, .or, .nor, .cmp, .sbb], ∀ x : Operand,
    (accept mn .one x = true ↔ x.IsReg)) ∧
  (∀ x : Operand, accept .sw .one x = true ↔ x.IsImm16 ∨ x = .absent) ∧
  (∀ mn ∈ [Mnemonic.push, .jnz, .outb], ∀ x : Operand,
    (accept mn .one x = true ↔ x.IsReg ∨ x.IsImm8)) ∧
  (∀ x : Operand, accept .lda .one x = true ↔ x.IsImm16) ∧
  (∀ mn ∈ [Mnemonic.mw, .inb, .add, .adc, .and, .or, .nor, .cmp, .sbb], ∀ x : Operand,
    (accept mn .two x = true ↔ x.IsReg ∨ x.IsImm8)) ∧
  (∀ x : Operand, accept .lw .two x = true ↔ x.IsImm16 ∨ x = .absent) ∧
  (∀ mn ∈ [Mnemonic.sw, .outb], ∀ x : Operand, (accept mn .two x = true ↔ x.IsReg)) ∧
  (∀ mn ∈ [Mnemonic.push, .pop, .lda, .jnz], ∀ x : Operand,
    (accept mn .two x = true ↔ x = .absent))

/-- The bit-packing function (R71, from R62 to R70) gives every instruction, whatever its operands, the
bytes of its row in the opcode table. -/
def Obligations.PackingAgreesWithTheOpcodeTable : Prop :=
  ∀ i : Instr, enc (mnemonicOf i) (slot1Of i) (slot2Of i) = encode i

/-- R47, for all thirty rows: an accepted instruction appends exactly its 1, 2 or 3 bytes and completes
in that state; a rejected encode command appends nothing. -/
def Obligations.AcceptedInstructionAppendsItsBytes : Prop :=
  (∀ (i : Instr) (s : State), i.wf = true → s.Open → s.HasRoom (encode i).length →
    exec i s = .next (s.afterOk (encode i)) ∧
    1 ≤ (encode i).length ∧ (encode i).length ≤ 3) ∧
  (∀ (mn : Mnemonic) (a b : Operand) (s t : State),
    accept mn .one a = false ∨ accept mn .two b = false →
    runCommand (.encode mn a b) s = .next t → t.image = s.image)

/-- R23 (decision D4): an instruction with a register code 6 or 7 is rejected, and only well-formed
instructions are ever answered `OK`. -/
def Obligations.UnnamedRegisterIsRejected : Prop :=
  (∀ (i : Instr) (s : State), i.wf = false → s.Open →
    ∃ slot, exec i s = .next (s.afterReject slot)) ∧
  (∀ (i : Instr) (s t : State) (bs : List Byte), exec i s = .next t →
    t.responses = s.responses ++ [.status (.ok bs)] → i.wf = true ∧ bs = encode i)

/-- The frame of an encode command, for all thirty rows and for every operand outside them: the
parameters and the commands issued are unchanged, exactly one status is answered, the image grows by
the bytes of that status (none unless it is `OK`) with every earlier byte as before, and the fault flag
changes only by a rejection, to 1 (R105, R109, R29; decisions D6, D7). -/
def Obligations.EncodeCommandFrame : Prop :=
  ∀ (mn : Mnemonic) (a b : Operand) (s t : State), runCommand (.encode mn a b) s = .next t →
    t.config = s.config ∧ t.commands = s.commands ∧
    (∀ k, k < s.image.length → t.readByte k = s.readByte k) ∧
    ∃ st : Status, t.responses = s.responses ++ [.status st] ∧
      t.image = s.image ++ okBytes [.status st] ∧
      ((∃ slot, st = .invalidOperandVariant slot) → t.fault = true) ∧
      ((¬ ∃ slot, st = .invalidOperandVariant slot) → t.fault = s.fault)

/-- The frame of exec, for every one of the thirty constructors (same clauses; the registers of the
target CPU are no state of the block, R21). -/
def Obligations.InstructionFrame : Prop :=
  ∀ (i : Instr) (s t : State), exec i s = .next t →
    t.config = s.config ∧ t.commands = s.commands ∧
    (∀ k, k < s.image.length → t.readByte k = s.readByte k) ∧
    ((t = s.afterOk (encode i) ∧ s.Open ∧ i.wf = true) ∨
      (∃ slot, t = s.afterReject slot ∧ s.Open ∧ i.wf = false) ∨
      (t = s.afterTerminated ∧ ¬ s.Open))

/-- R109: what an accepted command appends depends on its mnemonic and operands alone; and beside the
parameters a command reads no state but the fault flag and the length of the image: two states that
agree on these give the same status and the same flag. -/
def Obligations.EncodeCommandReadsOnlyFaultAndLength : Prop :=
  (∀ (mn : Mnemonic) (a b : Operand) (s s' t t' : State) (bs bs' : List Byte),
    runCommand (.encode mn a b) s = .next t → t.responses = s.responses ++ [.status (.ok bs)] →
    runCommand (.encode mn a b) s' = .next t' → t'.responses = s'.responses ++ [.status (.ok bs')] →
    bs = bs') ∧
  (∀ (mn : Mnemonic) (a b : Operand) (s s' t : State),
    s.fault = s'.fault → s.config = s'.config → s.image.length = s'.image.length →
    runCommand (.encode mn a b) s = .next t →
    ∃ (t' : State) (st : Status), runCommand (.encode mn a b) s' = .next t' ∧
      t.responses = s.responses ++ [.status st] ∧ t'.responses = s'.responses ++ [.status st] ∧
      t.fault = t'.fault)

/-! ### The error, the fault flag and the ended session -/

/-- R108 (decision D7): under `ABORT` an encode command after an error is answered `TERMINATED` and
changes no state, while `bytes()` still gives the image; under `REPORT` it runs as it would with a clear
fault flag, and the flag stays 1. -/
def Obligations.EncodingAfterAnError : Prop :=
  (∀ s : State, s.fault = true → s.config.errorPolicy = .abort →
    (∀ i : Instr, exec i s = .next s.afterTerminated) ∧
    (∀ (mn : Mnemonic) (a b : Operand),
      runCommand (.encode mn a b) s = .next s.afterTerminated) ∧
    runCommand .read s = .next { s with responses := s.responses ++ [.image s.image true] }) ∧
  (∀ (s t : State) (mn : Mnemonic) (a b : Operand),
    s.fault = true → s.config.errorPolicy = .report →
    runCommand (.encode mn a b) { s with fault := false } = .next t →
    runCommand (.encode mn a b) s = .next { t with fault := true })

/-- R162 and R165 (decision D6): a step answered with the error leaves the image byte-identical and sets
the fault flag, and nothing else of the block has changed. -/
def Obligations.ErrorLeavesTheImage : Prop :=
  ∀ (s t : State) (slot : Slot), step s = .next t →
    t.responses = s.responses ++ [.status (.invalidOperandVariant slot)] →
    t.image = s.image ∧ t.fault = true ∧ t.config = s.config ∧ t.commands = s.commands.tail

/-- R29 (decision D6): after a step the fault flag is 1 exactly when it was 1 and the command was not
`new()`, or the command was rejected. -/
def Obligations.FaultFlagIsSetByRejectionClearedByNew : Prop :=
  ∀ s t : State, step s = .next t →
    (t.fault = true ↔
      (s.fault = true ∧ s.commands.head? ≠ some .new) ∨
      ∃ slot, t.responses = s.responses ++ [.status (.invalidOperandVariant slot)])

/-- R167 (decision D7): `new()` is the only way out of an ended session. -/
def Obligations.OnlyNewReopensTheSession : Prop :=
  ∀ s t : State, step s = .next t → ¬ s.Open → t.Open → s.commands.head? = some .new

/-! ### The image -/

/-- R41: no command but `new()` overwrites, removes or reorders a byte of the image; a step appends at
its end, at most 3 bytes, and bytes only where it answers `OK` with them; `new()` empties it. -/
def Obligations.ImageIsAppendOnly : Prop :=
  ∀ s t : State, step s = .next t →
    (s.commands.head? ≠ some .new →
      (∀ k, k < s.image.length → t.readByte k = s.readByte k) ∧
      ∃ bs : List Byte, t.image = s.image ++ bs ∧ bs.length ≤ 3 ∧
        (bs ≠ [] → t.responses = s.responses ++ [.status (.ok bs)])) ∧
    (s.commands.head? = some .new → t.image = [])

/-- R43 and R44: byte 0 enters the image first, then the address low byte first. -/
def Obligations.AddressesEnterLowByteFirst : Prop :=
  ∀ (s t : State) (i : Instr) (r : RegCode) (w : Addr),
    i = .lwAddr r w ∨ i = .swAddr w r ∨ i = .ldaAddr w →
    exec i s = .next t → t.responses = s.responses ++ [.status (.ok (encode i))] →
    (t.readByte s.image.length).map byte0Class = some (mnemonicOf i).classCode ∧
    t.readByte (s.image.length + 1) = some (w.extractLsb' 0 8) ∧
    t.readByte (s.image.length + 2) = some (w.extractLsb' 8 8) ∧
    t.readByte (s.image.length + 3) = none

/-- R49 (decision D8): on a finite implementation a command whose bytes do not fit has no step; with the
image unbounded nothing stops for space. -/
def Obligations.FullImageStopsTheCommand : Prop :=
  (∀ (i : Instr) (s : State), i.wf = true → s.Open → ¬ s.HasRoom (encode i).length →
    exec i s = .fault .stuckCapacity) ∧
  (∀ (i : Instr) (s : State), s.config.maxImageLen = none → ∃ t, exec i s = .next t)

/-- R160 and R175: with the image unbounded, as on this hardware, every command completes in one step;
`new()` and `bytes()` do so whatever the capacity. `cmd = 11` is no command (R104). -/
def Obligations.EveryCommandCompletes : Prop :=
  (∀ (s : State) (c : Command) (rest : List Command), s.commands = c :: rest → c ≠ .reserved →
    s.config.maxImageLen = none → ∃ t, step s = .next t ∧ t.commands = rest) ∧
  (∀ s : State, (∃ t, runCommand .new s = .next t) ∧ (∃ t, runCommand .read s = .next t))

/-- R182: the parameters are fixed for the life of the block and set by no command. -/
def Obligations.NoCommandSetsAParameter : Prop :=
  ∀ s t : State, step s = .next t → t.config = s.config

/-- R101: an answer already given does not change when later commands run; each step adds at most one.
The stream of answers in State is the model's (log entry 3). -/
def Obligations.EarlierAnswersStand : Prop :=
  ∀ s t : State, step s = .next t →
    ∃ rs : List Response, t.responses = s.responses ++ rs ∧ rs.length ≤ 1

/-- The image is never longer than `MAX_IMAGE_LEN` (R26, R49, decision D8): an invariant of every
step. -/
def Obligations.StepKeepsTheImageWithinCapacity : Prop :=
  ∀ s t : State, s.WithinCapacity → step s = .next t → t.WithinCapacity

/-- Whatever commands come, the reference decoder reads the image to its end (R85, R92): an invariant of
every step, from every state that has it. -/
def Obligations.StepKeepsTheImageDecodable : Prop :=
  ∀ s t : State, s.Decodable → step s = .next t → t.Decodable

/-- Both invariants hold at reset. -/
def Obligations.ResetMeetsTheInvariants : Prop :=
  State.reset.Decodable ∧ State.reset.WithinCapacity

/-- R54: accepted instructions enter the image in the order of their commands, each as its own bytes,
from any open state with room for them all. -/
def Obligations.ImageKeepsTheCommandOrder : Prop :=
  ∀ (is : List Instr) (rest : List Command) (s : State),
    (∀ i ∈ is, i.wf = true) → s.Open → s.HasRoom (is.flatMap encode).length →
    s.commands = is.map commandOf ++ rest →
    Sys2Proof.core.run is.length s = .next
      { s with
        image := s.image ++ is.flatMap encode
        commands := rest
        responses := s.responses ++ okResponses is }

/-- Over any number of steps none of which takes `new()`, whatever the other commands, the image grows
by exactly the bytes of the accepted ones, in order (10_state.md section 4; derived rule R32). The answers
that tell which were accepted stand in State by the model's choice (log entry 3). -/
def Obligations.ImageIsTheConcatenationOfAcceptedBytes : Prop :=
  ∀ (n : Nat) (s t : State), Command.new ∉ s.commands.take n →
    Sys2Proof.core.run n s = .next t →
    ∃ rs : List Response, t.responses = s.responses ++ rs ∧ t.image = s.image ++ okBytes rs

/-! ### The wire format -/

/-- R20: the fixed code of each register identifier; a code names the identifier that has it, and 6 and
7 name none. -/
def Obligations.RegisterCodesAreFixed : Prop :=
  Reg.A.code = 0 ∧ Reg.B.code = 1 ∧ Reg.C.code = 2 ∧ Reg.D.code = 3 ∧ Reg.H.code = 4 ∧
  Reg.Z.code = 5 ∧ ∀ (c : RegCode) (r : Reg), Reg.ofCode? c = some r ↔ r.code = c

/-- The class space is full: each of the 16 classes belongs to exactly one mnemonic (R73, derived). -/
def Obligations.ClassesAndMnemonicsCorrespond : Prop :=
  (∀ mn : Mnemonic, Mnemonic.ofClass mn.classCode = mn) ∧
  (∀ c : ClassCode, (Mnemonic.ofClass c).classCode = c)

/-- The source's worked examples S1 to S5 (95_test_vectors.md section 1), and two vectors the spec
derived from its own rules, X4 and X5 (section 2.7), written out in bytes. -/
def Obligations.WorkedExamplesDecode : Prop :=
  decodeBytes [0x00, 0x03] = .ok (.mwImm Reg.A.code 3, 2) ∧
  decodeAt [0x00, 0x03, 0x01, 0x04, 0x98, 0x01] 2 = .ok (.mwImm Reg.B.code 4, 2) ∧
  decodeAt [0x00, 0x03, 0x01, 0x04, 0x98, 0x01] 4 = .ok (.addReg Reg.A.code Reg.B.code, 2) ∧
  decodeBytes [0x50, 0xFE, 0xCA] = .ok (.ldaAddr 0xCAFE, 3) ∧
  decodeBytes [0x4A] = .ok (.popReg Reg.C.code, 1) ∧
  decodeBytes [0x89, 0x02] = .ok (.outbReg Reg.C.code Reg.B.code, 2) ∧
  decodeBytes [0x1A] = .ok (.lwHl Reg.C.code, 1)

/-- Round trip, for every well-formed instruction at any place in any bytes (30_encoding.md section 8;
derived rule R91, decision D14). -/
def Obligations.DecodeInvertsEncode : Prop :=
  ∀ (i : Instr) (before after : List Byte), i.wf = true →
    decodeAt (before ++ encode i ++ after) before.length = .ok (i, (encode i).length)

/-- What the reference decoder accepts is exactly the encoding of the instruction it answers, which is
well-formed. -/
def Obligations.DecodedBytesAreTheEncoding : Prop :=
  ∀ (bytes : List Byte) (i : Instr) (n : Nat), decodeBytes bytes = .ok (i, n) →
    i.wf = true ∧ n = (encode i).length ∧ bytes.take n = encode i

/-- No encoding is a prefix of another's, and the image of any accepted sequence decodes to exactly that
sequence (30_encoding.md section 8; derived rule R92). -/
def Obligations.ImageDecodesToItsInstructions : Prop :=
  (∀ i j : Instr, i.wf = true → j.wf = true → encode i <+: encode j → i = j) ∧
  (∀ is : List Instr, (∀ i ∈ is, i.wf = true) → decodeImage (is.flatMap encode) = .ok is)

/-- The classification of byte 0 (30_encoding.md section 6; derived rule R80): the produced values are
those some well-formed instruction begins with, and 165 of the 256 are produced. -/
def Obligations.ProducedByteZeroValues : Prop :=
  (∀ b : Byte, producedByte0 b = true ↔ ∃ i : Instr, i.wf = true ∧ (encode i).head? = some b) ∧
  ((List.range 256).filter (fun n => producedByte0 (BitVec.ofNat 8 n))).length = 165

/-- The length of an instruction is a function of its byte 0 alone (30_encoding.md section 6; derived
rule R81). -/
def Obligations.LengthIsAFunctionOfByteZero : Prop :=
  ∀ i : Instr, i.wf = true →
    ∃ (b : Byte) (rest : List Byte), encode i = b :: rest ∧ (encode i).length = lengthOfByte0 b

/-- The reference decoder answers `INVALID` by name for every pattern that is not produced
(30_encoding.md section 7; rule R85, decision D13): a byte 0 of no instruction, an RR byte 1 above 5,
and an instruction cut off by the end. -/
def Obligations.NotProducedPatternsAreInvalid : Prop :=
  (∀ (b : Byte) (rest : List Byte), producedByte0 b = false →
    decodeBytes (b :: rest) = .error .notProduced) ∧
  (∀ (b b1 : Byte) (rest : List Byte), producedByte0 b = true → 8 ≤ b.toNat % 16 →
    lengthOfByte0 b = 2 → 5 < b1.toNat → decodeBytes (b :: b1 :: rest) = .error .notProduced) ∧
  (∀ (i : Instr) (k : Nat), i.wf = true → k < (encode i).length →
    decodeBytes ((encode i).take k) = .error .truncated)

/-! ### The bit-level interface -/

/-- A command survives its wires (40_session.md section 1, R104; decision D3), whatever its mnemonic and
operands, an operand that is not well-formed included. -/
def Obligations.WiresCarryTheCommand : Prop :=
  ∀ c : Command, unpackCommand (packCommand c) = c

/-- A slot that is not well-formed fails the acceptance check of every mnemonic (40_session.md section
1, R104; decision D5). -/
def Obligations.IllFormedWireSlotIsNeverAccepted : Prop :=
  ∀ (tag : BitVec 2) (val : BitVec 16) (mn : Mnemonic) (slot : Slot),
    (tag = 0 ∧ val ≠ 0) ∨ (tag = 1 ∧ 5 < val.toNat) ∨ (tag = 2 ∧ 255 < val.toNat) →
    accept mn slot (unpackSlot tag val) = false

/-- The wires of an encode command's answer: status, slot, count, and the appended bytes from bit 0 up
with unused bits 0 (40_session.md section 1, R104; decision D3). -/
def Obligations.WireReplyCarriesTheStatus : Prop :=
  (∀ i : Instr,
    (packStatus (.ok (encode i))).status = 0 ∧ (packStatus (.ok (encode i))).errSlot = 0 ∧
    (packStatus (.ok (encode i))).n.toNat = (encode i).length ∧
    ∀ k, k < 3 → (packStatus (.ok (encode i))).out.extractLsb' (8 * k) 8 =
      ((encode i)[k]?).getD 0) ∧
  packStatus (.invalidOperandVariant .one) = { status := 1, errSlot := 0, n := 0, out := 0 } ∧
  packStatus (.invalidOperandVariant .two) = { status := 1, errSlot := 1, n := 0, out := 0 } ∧
  packStatus .terminated = { status := 2, errSlot := 0, n := 0, out := 0 }

/-- The code 11 on the `cmd` wires is no command: there is no step, whatever the other wires carry
(40_session.md section 1, R104; 93_implementation_defined.md I10; decision D3). -/
def Obligations.CmdElevenHasNoStep : Prop :=
  ∀ (s : State) (w : WireCommand) (rest : List Command), w.cmd = 3 →
    step { s with commands := unpackCommand w :: rest } = .fault .stuckNoCommand

/-- A loader puts `image[k]` at `LOAD_BASE + k` and nothing else anywhere (20_memory.md section 4, R50;
decision D12). That `LOAD_BASE + k` is a natural number, which does not wrap at 16 bits, is the model's
choice (log entry 10, unsafe for an image placed across the top of the CPU's address space). -/
def Obligations.LoaderPlacesTheImageAtTheBase : Prop :=
  ∀ (base a : Nat) (b : Byte) (img : List Byte),
    (a, b) ∈ placeAt base img ↔ ∃ k, a = base + k ∧ img[k]? = some b
end

