-- ==== Sys2Proof/Laws/State.lean ====
section
/-!
SUPPORT. One lemma per field per update of State, and the two tests of a state (session ended, image
full) in the words the statements use.
-/

namespace Sys2Proof.Machine

variable (s : State) (bs : List Byte) (r : Response) (c : Command) (slot : Slot)

@[simp] theorem setFault_image : s.setFault.image = s.image := rfl
@[simp] theorem setFault_fault : s.setFault.fault = true := rfl
@[simp] theorem setFault_config : s.setFault.config = s.config := rfl
@[simp] theorem setFault_commands : s.setFault.commands = s.commands := rfl
@[simp] theorem setFault_responses : s.setFault.responses = s.responses := rfl

@[simp] theorem clearFault_image : s.clearFault.image = s.image := rfl
@[simp] theorem clearFault_fault : s.clearFault.fault = false := rfl
@[simp] theorem clearFault_config : s.clearFault.config = s.config := rfl
@[simp] theorem clearFault_commands : s.clearFault.commands = s.commands := rfl
@[simp] theorem clearFault_responses : s.clearFault.responses = s.responses := rfl

@[simp] theorem append_image : (s.append bs).image = s.image ++ bs := rfl
@[simp] theorem append_fault : (s.append bs).fault = s.fault := rfl
@[simp] theorem append_config : (s.append bs).config = s.config := rfl
@[simp] theorem append_commands : (s.append bs).commands = s.commands := rfl
@[simp] theorem append_responses : (s.append bs).responses = s.responses := rfl

@[simp] theorem respond_image : (s.respond r).image = s.image := rfl
@[simp] theorem respond_fault : (s.respond r).fault = s.fault := rfl
@[simp] theorem respond_config : (s.respond r).config = s.config := rfl
@[simp] theorem respond_commands : (s.respond r).commands = s.commands := rfl
@[simp] theorem respond_responses : (s.respond r).responses = s.responses ++ [r] := rfl

@[simp] theorem issue_image : (s.issue c).image = s.image := rfl
@[simp] theorem issue_fault : (s.issue c).fault = s.fault := rfl
@[simp] theorem issue_config : (s.issue c).config = s.config := rfl
@[simp] theorem issue_commands : (s.issue c).commands = s.commands ++ [c] := rfl
@[simp] theorem issue_responses : (s.issue c).responses = s.responses := rfl

@[simp] theorem putNext_image : (s.putNext c).image = s.image := rfl
@[simp] theorem putNext_fault : (s.putNext c).fault = s.fault := rfl
@[simp] theorem putNext_config : (s.putNext c).config = s.config := rfl
@[simp] theorem putNext_commands : (s.putNext c).commands = c :: s.commands := rfl
@[simp] theorem putNext_responses : (s.putNext c).responses = s.responses := rfl

@[simp] theorem afterOk_image : (s.afterOk bs).image = s.image ++ bs := rfl
@[simp] theorem afterOk_fault : (s.afterOk bs).fault = s.fault := rfl
@[simp] theorem afterOk_config : (s.afterOk bs).config = s.config := rfl
@[simp] theorem afterOk_commands : (s.afterOk bs).commands = s.commands := rfl
@[simp] theorem afterOk_responses :
    (s.afterOk bs).responses = s.responses ++ [.status (.ok bs)] := rfl

@[simp] theorem afterReject_image : (s.afterReject slot).image = s.image := rfl
@[simp] theorem afterReject_fault : (s.afterReject slot).fault = true := rfl
@[simp] theorem afterReject_config : (s.afterReject slot).config = s.config := rfl
@[simp] theorem afterReject_commands : (s.afterReject slot).commands = s.commands := rfl
@[simp] theorem afterReject_responses :
    (s.afterReject slot).responses = s.responses ++ [.status (.invalidOperandVariant slot)] := rfl

@[simp] theorem afterTerminated_image : s.afterTerminated.image = s.image := rfl
@[simp] theorem afterTerminated_fault : s.afterTerminated.fault = s.fault := rfl
@[simp] theorem afterTerminated_config : s.afterTerminated.config = s.config := rfl
@[simp] theorem afterTerminated_commands : s.afterTerminated.commands = s.commands := rfl
@[simp] theorem afterTerminated_responses :
    s.afterTerminated.responses = s.responses ++ [.status .terminated] := rfl

/-! The operations reach exactly the states the statements name. -/

theorem respond_terminated : s.respond (.status .terminated) = s.afterTerminated := rfl
theorem raiseInvalidOperand_eq : s.raiseInvalidOperand slot = s.afterReject slot := rfl
theorem append_respond : (s.append bs).respond (.status (.ok bs)) = s.afterOk bs := rfl

/-! ### The two tests -/

theorem sessionEnded_eq_false : s.sessionEnded = false ↔ s.Open := by
  simp [State.sessionEnded, State.Open]

theorem sessionEnded_eq_true : s.sessionEnded = true ↔ ¬ s.Open := by
  simp [State.sessionEnded, State.Open]

theorem overflows_eq_false (n : Nat) : s.overflows n = false ↔ s.HasRoom n := by
  unfold State.overflows State.HasRoom
  cases s.config.maxImageLen <;> simp

theorem overflows_eq_true (n : Nat) : s.overflows n = true ↔ ¬ s.HasRoom n := by
  rw [← overflows_eq_false, Bool.not_eq_false]

theorem hasRoom_of_unbounded (h : s.config.maxImageLen = none) (n : Nat) : s.HasRoom n := by
  simp [State.HasRoom, h]

theorem open_of_fault_false (h : s.fault = false) : s.Open := by simp [State.Open, h]

theorem open_of_report (h : s.config.errorPolicy = .report) : s.Open := by simp [State.Open, h]

end Sys2Proof.Machine
end

