-- ==== Sys2Proof/Laws/Ops.lean ====
section
/-!
SUPPORT. What each shared operation can do, said once: the common encode step (its four answers and its
one stop), the command stream, and the loader's view with its canonical form.
-/

namespace Sys2Proof.Machine

variable {a1 a2 : Bool} {bs : List Byte} {s t : State}

/-! ### The common encode step (R102), one lemma per branch -/

theorem encodeStep_ended (h : ¬ s.Open) : encodeStep a1 a2 bs s = .next s.afterTerminated := by
  simp [encodeStep, (sessionEnded_eq_true s).2 h, respond_terminated]

theorem encodeStep_reject_one (h : s.Open) (h1 : a1 = false) :
    encodeStep a1 a2 bs s = .next (s.afterReject .one) := by
  simp [encodeStep, (sessionEnded_eq_false s).2 h, h1, raiseInvalidOperand_eq]

theorem encodeStep_reject_two (h : s.Open) (h1 : a1 = true) (h2 : a2 = false) :
    encodeStep a1 a2 bs s = .next (s.afterReject .two) := by
  simp [encodeStep, (sessionEnded_eq_false s).2 h, h1, h2, raiseInvalidOperand_eq]

theorem encodeStep_full (h : s.Open) (h1 : a1 = true) (h2 : a2 = true) (hr : ¬ s.HasRoom bs.length) :
    encodeStep a1 a2 bs s = .fault .stuckCapacity := by
  simp [encodeStep, (sessionEnded_eq_false s).2 h, h1, h2, (overflows_eq_true s _).2 hr]

theorem encodeStep_ok (h : s.Open) (h1 : a1 = true) (h2 : a2 = true) (hr : s.HasRoom bs.length) :
    encodeStep a1 a2 bs s = .next (s.afterOk bs) := by
  simp [encodeStep, (sessionEnded_eq_false s).2 h, h1, h2, (overflows_eq_false s _).2 hr,
    append_respond]

/-- Every next state of the common encode step is one of four, each with the guard it stands under. -/
theorem encodeStep_next (h : encodeStep a1 a2 bs s = .next t) :
    (¬ s.Open ∧ t = s.afterTerminated) ∨
    (s.Open ∧ a1 = false ∧ t = s.afterReject .one) ∨
    (s.Open ∧ a1 = true ∧ a2 = false ∧ t = s.afterReject .two) ∨
    (s.Open ∧ a1 = true ∧ a2 = true ∧ s.HasRoom bs.length ∧ t = s.afterOk bs) := by
  by_cases ho : s.Open
  · cases a1
    · rw [encodeStep_reject_one ho rfl] at h
      cases h
      exact .inr (.inl ⟨ho, rfl, rfl⟩)
    · cases a2
      · rw [encodeStep_reject_two ho rfl rfl] at h
        cases h
        exact .inr (.inr (.inl ⟨ho, rfl, rfl, rfl⟩))
      · by_cases hr : s.HasRoom bs.length
        · rw [encodeStep_ok ho rfl rfl hr] at h
          cases h
          exact .inr (.inr (.inr ⟨ho, rfl, rfl, hr, rfl⟩))
        · rw [encodeStep_full ho rfl rfl hr] at h
          cases h
  · rw [encodeStep_ended ho] at h
    cases h
    exact .inl ⟨ho, rfl⟩

/-- The common encode step is never refused, and its one stop is the full image. -/
theorem encodeStep_stop {f : Fault} (h : encodeStep a1 a2 bs s = .fault f) :
    f = .stuckCapacity ∧ s.Open ∧ a1 = true ∧ a2 = true ∧ ¬ s.HasRoom bs.length := by
  by_cases ho : s.Open
  · cases a1
    · rw [encodeStep_reject_one ho rfl] at h
      cases h
    · cases a2
      · rw [encodeStep_reject_two ho rfl rfl] at h
        cases h
      · by_cases hr : s.HasRoom bs.length
        · rw [encodeStep_ok ho rfl rfl hr] at h
          cases h
        · rw [encodeStep_full ho rfl rfl hr] at h
          cases h
          exact ⟨rfl, ho, rfl, rfl, hr⟩
  · rw [encodeStep_ended ho] at h
    cases h

/-! ### The command stream -/

theorem takeCommand_nil (h : s.commands = []) : s.takeCommand = none := by
  simp [State.takeCommand, h]

theorem takeCommand_cons {c : Command} {rest : List Command} (h : s.commands = c :: rest) :
    s.takeCommand = some (c, { s with commands := rest }) := by
  simp [State.takeCommand, h]

/-- A command placed next is the one taken, and the rest is as it was. -/
theorem takeCommand_putNext (s : State) (c : Command) : (s.putNext c).takeCommand = some (c, s) := rfl

/-! ### The image and the loader's view -/

/-- `Append` writes no byte already in the image (R41). -/
theorem readByte_append (s : State) (bs : List Byte) (k : Nat) (h : k < s.image.length) :
    (s.append bs).readByte k = s.readByte k := by
  simp [State.readByte, List.getElem?_append_left h]

/-- `MemRead` of the whole image is the image (R11, R101). -/
theorem memRead_all (s : State) : s.memRead 0 s.image.length = s.image := by simp [State.memRead]

/-- A byte of a `MemRead` is the image's byte at that place. -/
theorem memRead_getElem? (s : State) (k n j : Nat) (h : j < n) :
    (s.memRead k n)[j]? = s.readByte (k + j) := by
  simp [State.memRead, State.readByte, h]

/-- A cell of the placed image lies at or above the base. -/
theorem placeAt_base_le {img : List Byte} : ∀ {base : Nat} {c : Host.Cell},
    c ∈ placeAt base img → base ≤ c.1 := by
  induction img with
  | nil => simp [placeAt]
  | cons b img ih =>
    intro base c h
    simp only [placeAt, List.mem_cons] at h
    obtain rfl | h := h
    · exact Nat.le_refl _
    · exact Nat.le_of_succ_le (ih h)

/-- The placed image is in canonical form. -/
theorem placeAt_wf (img : List Byte) : ∀ base, (placeAt base img).wf = true := by
  induction img with
  | nil => intro _; rfl
  | cons b img ih =>
    intro base
    have := ih (base + 1)
    cases img with
    | nil => rfl
    | cons c img => simpa [placeAt, Memory.wf] using this

/-- The reset image, as addressed bytes, is in canonical form. -/
theorem placeAt_reset_wf (base : Nat) : (placeAt base State.reset.image).wf = true := placeAt_wf _ _

end Sys2Proof.Machine
end

