-- ==== Sys2Proof/Laws/PerInstr.lean ====
section
/-!
SUPPORT. The statements made per instruction: the call of an instruction names its own row of the
opcode table, and an instruction's bytes are 1, 2 or 3.
-/

namespace Sys2Proof.Laws.FormOf

open Sys2Proof.Machine

/-- The mnemonic and operand variants of an instruction's call name that instruction (R69, R70). -/
def Statement (i : Instr) : Prop := formOf? (mnemonicOf i) (slot1Of i) (slot2Of i) = some i

theorem mwReg (x : RegCode) (y : RegCode) : Statement (.mwReg x y) := rfl
theorem mwImm (x : RegCode) (y : Byte) : Statement (.mwImm x y) := rfl
theorem lwAddr (x : RegCode) (y : Addr) : Statement (.lwAddr x y) := rfl
theorem lwHl (x : RegCode) : Statement (.lwHl x) := rfl
theorem swAddr (x : Addr) (y : RegCode) : Statement (.swAddr x y) := rfl
theorem swHl (x : RegCode) : Statement (.swHl x) := rfl
theorem pushReg (x : RegCode) : Statement (.pushReg x) := rfl
theorem pushImm (x : Byte) : Statement (.pushImm x) := rfl
theorem popReg (x : RegCode) : Statement (.popReg x) := rfl
theorem ldaAddr (x : Addr) : Statement (.ldaAddr x) := rfl
theorem jnzReg (x : RegCode) : Statement (.jnzReg x) := rfl
theorem jnzImm (x : Byte) : Statement (.jnzImm x) := rfl
theorem inbReg (x : RegCode) (y : RegCode) : Statement (.inbReg x y) := rfl
theorem inbImm (x : RegCode) (y : Byte) : Statement (.inbImm x y) := rfl
theorem outbReg (x : RegCode) (y : RegCode) : Statement (.outbReg x y) := rfl
theorem outbImm (x : Byte) (y : RegCode) : Statement (.outbImm x y) := rfl
theorem addReg (x : RegCode) (y : RegCode) : Statement (.addReg x y) := rfl
theorem addImm (x : RegCode) (y : Byte) : Statement (.addImm x y) := rfl
theorem adcReg (x : RegCode) (y : RegCode) : Statement (.adcReg x y) := rfl
theorem adcImm (x : RegCode) (y : Byte) : Statement (.adcImm x y) := rfl
theorem andReg (x : RegCode) (y : RegCode) : Statement (.andReg x y) := rfl
theorem andImm (x : RegCode) (y : Byte) : Statement (.andImm x y) := rfl
theorem orReg (x : RegCode) (y : RegCode) : Statement (.orReg x y) := rfl
theorem orImm (x : RegCode) (y : Byte) : Statement (.orImm x y) := rfl
theorem norReg (x : RegCode) (y : RegCode) : Statement (.norReg x y) := rfl
theorem norImm (x : RegCode) (y : Byte) : Statement (.norImm x y) := rfl
theorem cmpReg (x : RegCode) (y : RegCode) : Statement (.cmpReg x y) := rfl
theorem cmpImm (x : RegCode) (y : Byte) : Statement (.cmpImm x y) := rfl
theorem sbbReg (x : RegCode) (y : RegCode) : Statement (.sbbReg x y) := rfl
theorem sbbImm (x : RegCode) (y : Byte) : Statement (.sbbImm x y) := rfl

end Sys2Proof.Laws.FormOf

namespace Sys2Proof.Laws.EncodedLength

/-- The number of bytes of an instruction, the length column of R70. -/
def rowLength : Instr → Nat
  | .mwReg .. => 2
  | .mwImm .. => 2
  | .lwAddr .. => 3
  | .lwHl .. => 1
  | .swAddr .. => 3
  | .swHl .. => 1
  | .pushReg .. => 1
  | .pushImm .. => 2
  | .popReg .. => 1
  | .ldaAddr .. => 3
  | .jnzReg .. => 1
  | .jnzImm .. => 2
  | .inbReg .. => 2
  | .inbImm .. => 2
  | .outbReg .. => 2
  | .outbImm .. => 2
  | .addReg .. => 2
  | .addImm .. => 2
  | .adcReg .. => 2
  | .adcImm .. => 2
  | .andReg .. => 2
  | .andImm .. => 2
  | .orReg .. => 2
  | .orImm .. => 2
  | .norReg .. => 2
  | .norImm .. => 2
  | .cmpReg .. => 2
  | .cmpImm .. => 2
  | .sbbReg .. => 2
  | .sbbImm .. => 2

/-- An instruction has as many bytes as its row says (R60, R70). -/
def Statement (i : Instr) : Prop := (encode i).length = rowLength i

theorem mwReg (x : RegCode) (y : RegCode) : Statement (.mwReg x y) := rfl
theorem mwImm (x : RegCode) (y : Byte) : Statement (.mwImm x y) := rfl
theorem lwAddr (x : RegCode) (y : Addr) : Statement (.lwAddr x y) := rfl
theorem lwHl (x : RegCode) : Statement (.lwHl x) := rfl
theorem swAddr (x : Addr) (y : RegCode) : Statement (.swAddr x y) := rfl
theorem swHl (x : RegCode) : Statement (.swHl x) := rfl
theorem pushReg (x : RegCode) : Statement (.pushReg x) := rfl
theorem pushImm (x : Byte) : Statement (.pushImm x) := rfl
theorem popReg (x : RegCode) : Statement (.popReg x) := rfl
theorem ldaAddr (x : Addr) : Statement (.ldaAddr x) := rfl
theorem jnzReg (x : RegCode) : Statement (.jnzReg x) := rfl
theorem jnzImm (x : Byte) : Statement (.jnzImm x) := rfl
theorem inbReg (x : RegCode) (y : RegCode) : Statement (.inbReg x y) := rfl
theorem inbImm (x : RegCode) (y : Byte) : Statement (.inbImm x y) := rfl
theorem outbReg (x : RegCode) (y : RegCode) : Statement (.outbReg x y) := rfl
theorem outbImm (x : Byte) (y : RegCode) : Statement (.outbImm x y) := rfl
theorem addReg (x : RegCode) (y : RegCode) : Statement (.addReg x y) := rfl
theorem addImm (x : RegCode) (y : Byte) : Statement (.addImm x y) := rfl
theorem adcReg (x : RegCode) (y : RegCode) : Statement (.adcReg x y) := rfl
theorem adcImm (x : RegCode) (y : Byte) : Statement (.adcImm x y) := rfl
theorem andReg (x : RegCode) (y : RegCode) : Statement (.andReg x y) := rfl
theorem andImm (x : RegCode) (y : Byte) : Statement (.andImm x y) := rfl
theorem orReg (x : RegCode) (y : RegCode) : Statement (.orReg x y) := rfl
theorem orImm (x : RegCode) (y : Byte) : Statement (.orImm x y) := rfl
theorem norReg (x : RegCode) (y : RegCode) : Statement (.norReg x y) := rfl
theorem norImm (x : RegCode) (y : Byte) : Statement (.norImm x y) := rfl
theorem cmpReg (x : RegCode) (y : RegCode) : Statement (.cmpReg x y) := rfl
theorem cmpImm (x : RegCode) (y : Byte) : Statement (.cmpImm x y) := rfl
theorem sbbReg (x : RegCode) (y : RegCode) : Statement (.sbbReg x y) := rfl
theorem sbbImm (x : RegCode) (y : Byte) : Statement (.sbbImm x y) := rfl

end Sys2Proof.Laws.EncodedLength

namespace Sys2Proof.Machine

/-- `formOf?` undoes `commandOf`, for every instruction. -/
theorem formOf?_of_instr (i : Instr) :
    formOf? (mnemonicOf i) (slot1Of i) (slot2Of i) = some i := by
  cases i <;> rfl

/-- An encode command that names a row is that row's call. -/
theorem formOf?_eq_some {mn : Mnemonic} {a b : Operand} {i : Instr} (h : formOf? mn a b = some i) :
    mnemonicOf i = mn ∧ slot1Of i = a ∧ slot2Of i = b := by
  cases mn <;> cases a <;> cases b <;> simp [formOf?] at h <;> subst h <;> exact ⟨rfl, rfl, rfl⟩

theorem encode_length_pos (i : Instr) : 0 < (encode i).length := by cases i <;> simp [encode]

theorem encode_length_le (i : Instr) : (encode i).length ≤ 3 := by cases i <;> simp [encode]

end Sys2Proof.Machine
end

