-- ==== Sys2Proof/Laws/Exec.lean ====
section
/-!
SUPPORT. The acceptance check in the words of the statements, and exec seen through its shared
operation: every instruction is the common encode step on the acceptance and packing of its own call.
-/

namespace Sys2Proof.Machine

/-- The three spellings of "the code names a register" agree. -/
theorem acceptReg_iff (c : RegCode) : acceptReg c = true ↔ c.toNat ≤ 5 := by
  revert c; decide

theorem acceptReg_eq_named (c : RegCode) : acceptReg c = RegCode.named c := by
  revert c; decide

theorem acceptsReg_iff (x : Operand) : acceptsReg x = true ↔ x.IsReg := by
  cases x <;> simp [acceptsReg, acceptReg_iff, Operand.IsReg]

theorem acceptsRegImm8_iff (x : Operand) : acceptsRegImm8 x = true ↔ x.IsReg ∨ x.IsImm8 := by
  cases x <;> simp [acceptsRegImm8, acceptReg_iff, Operand.IsReg, Operand.IsImm8]

theorem acceptsAddrOrAbsent_iff (x : Operand) :
    acceptsAddrOrAbsent x = true ↔ x.IsImm16 ∨ x = .absent := by
  cases x <;> simp [acceptsAddrOrAbsent, Operand.IsImm16]

theorem acceptsAddr_iff (x : Operand) : acceptsAddr x = true ↔ x.IsImm16 := by
  cases x <;> simp [acceptsAddr, Operand.IsImm16]

theorem acceptsAbsent_iff (x : Operand) : acceptsAbsent x = true ↔ x = .absent := by
  cases x <;> simp [acceptsAbsent]

/-! The same checks where they fail. -/

theorem acceptsReg_eq_false (x : Operand) : acceptsReg x = false ↔ ¬ x.IsReg := by
  rw [← acceptsReg_iff, Bool.not_eq_true]

theorem acceptsRegImm8_eq_false (x : Operand) :
    acceptsRegImm8 x = false ↔ ¬ x.IsReg ∧ ¬ x.IsImm8 := by
  rw [← not_or, ← acceptsRegImm8_iff, Bool.not_eq_true]

theorem acceptsAddrOrAbsent_eq_false (x : Operand) :
    acceptsAddrOrAbsent x = false ↔ ¬ x.IsImm16 ∧ x ≠ .absent := by
  rw [ne_eq, ← not_or, ← acceptsAddrOrAbsent_iff, Bool.not_eq_true]

theorem acceptsAddr_eq_false (x : Operand) : acceptsAddr x = false ↔ ¬ x.IsImm16 := by
  rw [← acceptsAddr_iff, Bool.not_eq_true]

theorem acceptsAbsent_eq_false (x : Operand) : acceptsAbsent x = false ↔ x ≠ .absent := by
  rw [ne_eq, ← acceptsAbsent_iff, Bool.not_eq_true]

/-- Both slots of an instruction's call are accepted exactly when the instruction is well-formed. -/
theorem accept_call_iff_wf (i : Instr) :
    (accept (mnemonicOf i) .one (slot1Of i) = true ∧ accept (mnemonicOf i) .two (slot2Of i) = true) ↔
      i.wf = true := by
  cases i <;>
    simp [accept, mnemonicOf, slot1Of, slot2Of, acceptsReg, acceptsRegImm8, acceptsAddrOrAbsent,
      acceptsAddr, acceptsAbsent, acceptReg_eq_named, Instr.wf, Instr.regCodes]

/-- Every meaning is the common encode step (R102) on its own call. -/
theorem exec_eq_encodeCommand (i : Instr) (s : State) :
    exec i s = encodeCommand (mnemonicOf i) (slot1Of i) (slot2Of i) s := by
  cases i <;> rfl

theorem exec_ne_refused (i : Instr) (s : State) (r : Refusal) : exec i s ≠ .refused r := by
  rw [exec_eq_encodeCommand]
  unfold encodeCommand encodeStep
  split_ifs <;> simp

end Sys2Proof.Machine
end

