-- ==== Sys2Proof/Laws/Decode.lean ====
section
/-!
SUPPORT. The fields of byte 0 read back what was packed, addresses and register bytes survive their
byte order, and the byte-level decoder's arms in terms of their inputs.
-/

namespace Sys2Proof

@[simp] theorem ofClass_classCode (mn : Mnemonic) : Mnemonic.ofClass mn.classCode = mn := by
  cases mn <;> rfl

theorem code_ofCode? (c : RegCode) (r : Reg) (h : Reg.ofCode? c = some r) : r.code = c := by
  revert c; cases r <;> decide

/-- The secondary register of a byte 1 that was zero-extended (R64). -/
theorem zext8_low (c : RegCode) : (zext8 c).setWidth 3 = c := by revert c; decide

theorem zext8_toNat (c : RegCode) : (zext8 c).toNat = c.toNat := by revert c; decide

/-- The two address bytes, low first, join to the address (R43). -/
theorem addrOf_lo_hi (w : Addr) : addrOf (addrLo w) (addrHi w) = w := by
  ext i hi
  simp only [addrOf, addrLo, addrHi, BitVec.getElem_or, BitVec.getElem_shiftLeft,
    BitVec.getElem_setWidth, BitVec.getLsbD_extractLsb']
  by_cases h : i < 8
  · simp [h, BitVec.getElem_eq_testBit_toNat, BitVec.getLsbD]
  · have h1 : i - 8 < 8 := by omega
    have h2 : 8 + (i - 8) = i := by omega
    simp [h, h1, h2, BitVec.getElem_eq_testBit_toNat, BitVec.getLsbD]

@[simp] theorem addrLo_addrOf (lo hi : Byte) : addrLo (addrOf lo hi) = lo := by
  ext i h
  have h1 : i < 16 := by omega
  simp [addrOf, addrLo, h, h1]

@[simp] theorem addrHi_addrOf (lo hi : Byte) : addrHi (addrOf lo hi) = hi := by
  ext i h
  have h1 : 8 + i < 16 := by omega
  simp [addrOf, addrHi, h, h1]

end Sys2Proof

namespace Sys2Proof.Machine

/-! ### Byte 0 (R61, R67) -/

theorem byte0Class_pack (mn : Mnemonic) (m : Bool) (p : RegCode) :
    byte0Class (packByte0 mn m p) = mn.classCode := by
  cases mn <;> cases m <;> revert p <;> decide

theorem byte0Mode_pack (mn : Mnemonic) (m : Bool) (p : RegCode) :
    byte0Mode (packByte0 mn m p) = m := by
  cases mn <;> cases m <;> revert p <;> decide

theorem byte0Prim_pack (mn : Mnemonic) (m : Bool) (p : RegCode) :
    byte0Prim (packByte0 mn m p) = p := by
  cases mn <;> cases m <;> revert p <;> decide

/-- A byte is its three fields packed again, so no bit of byte 0 is dropped. -/
theorem packByte0_fields (b : Byte) :
    packByte0 (Mnemonic.ofClass (byte0Class b)) (byte0Mode b) (byte0Prim b) = b := by
  revert b; decide

end Sys2Proof.Machine
end

