-- ==== Sys2Proof/Tests/Slice0.lean ====
section
/-!
SUPPORT. The model's own tests. Expected bytes are written out from the encoding column of
spec/opcode_table.json, with the vectors of spec/95_test_vectors.md (their ids stand in the comments);
expected states are those vectors' too. Then one witness per statement that has hypotheses.
-/

namespace Sys2Proof.Tests

open Sys2Proof.Machine

/-! ### WellFormed refuses an ill-formed term -/

theorem test_wf_refuses_code_6_in_byte0 : (Instr.mwImm 6 0).wf = false := by decide
theorem test_wf_refuses_code_7_in_byte1 : (Instr.inbReg 0 7).wf = false := by decide
theorem test_wf_refuses_code_6_of_single : (Instr.pushReg 6).wf = false := by decide
theorem test_wf_refuses_source_after_address : (Instr.swAddr 0x1000 7).wf = false := by decide
theorem test_wf_accepts_code_5 : (Instr.outbReg 5 5).wf = true := by decide

/-! ### Decoding: one word per row of the opcode table, bit by bit -/

-- M4
theorem test_decode_mwReg : decodeBytes [0b00001101, 0b00000100] = .ok (.mwReg 5 4, 2) := by decide
-- S1
theorem test_decode_mwImm : decodeBytes [0b00000000, 0b00000011] = .ok (.mwImm 0 3, 2) := by decide
-- M5
theorem test_decode_lwAddr : decodeBytes [0b00010000, 0b00110100, 0b00010010] = .ok (.lwAddr 0 0x1234, 3) := by decide
-- M8, X5
theorem test_decode_lwHl : decodeBytes [0b00011010] = .ok (.lwHl 2, 1) := by decide
-- M9
theorem test_decode_swAddr : decodeBytes [0b00100001, 0b00000000, 0b10000000] = .ok (.swAddr 0x8000 1, 3) := by decide
-- M11
theorem test_decode_swHl : decodeBytes [0b00101011] = .ok (.swHl 3, 1) := by decide
-- M13
theorem test_decode_pushReg : decodeBytes [0b00111101] = .ok (.pushReg 5, 1) := by decide
-- M15, X2
theorem test_decode_pushImm : decodeBytes [0b00110000, 0b01111111] = .ok (.pushImm 0x7F, 2) := by decide
-- S5, X1
theorem test_decode_popReg : decodeBytes [0b01001010] = .ok (.popReg 2, 1) := by decide
-- S4, X3
theorem test_decode_ldaAddr : decodeBytes [0b01010000, 0b11111110, 0b11001010] = .ok (.ldaAddr 0xCAFE, 3) := by decide
-- J2
theorem test_decode_jnzReg : decodeBytes [0b01101100] = .ok (.jnzReg 4, 1) := by decide
-- J5
theorem test_decode_jnzImm : decodeBytes [0b01100000, 0b11111111] = .ok (.jnzImm 0xFF, 2) := by decide
-- J7
theorem test_decode_inbReg : decodeBytes [0b01111011, 0b00000001] = .ok (.inbReg 3 1, 2) := by decide
-- J6
theorem test_decode_inbImm : decodeBytes [0b01110000, 0b00010000] = .ok (.inbImm 0 0x10, 2) := by decide
-- J11, X4
theorem test_decode_outbReg : decodeBytes [0b10001001, 0b00000010] = .ok (.outbReg 2 1, 2) := by decide
-- J12
theorem test_decode_outbImm : decodeBytes [0b10000101, 0b11111111] = .ok (.outbImm 0xFF 5, 2) := by decide
-- A2
theorem test_decode_addReg : decodeBytes [0b10011101, 0b00000011] = .ok (.addReg 5 3, 2) := by decide
-- A1
theorem test_decode_addImm : decodeBytes [0b10010000, 0b11111111] = .ok (.addImm 0 0xFF, 2) := by decide
-- A6
theorem test_decode_adcReg : decodeBytes [0b10101001, 0b00000010] = .ok (.adcReg 1 2, 2) := by decide
-- A4
theorem test_decode_adcImm : decodeBytes [0b10100001, 0b00000000] = .ok (.adcImm 1 0, 2) := by decide
-- A8
theorem test_decode_andReg : decodeBytes [0b10111000, 0b00000101] = .ok (.andReg 0 5, 2) := by decide
-- A7
theorem test_decode_andImm : decodeBytes [0b10110010, 0b00001111] = .ok (.andImm 2 0x0F, 2) := by decide
-- A11
theorem test_decode_orReg : decodeBytes [0b11001101, 0b00000000] = .ok (.orReg 5 0, 2) := by decide
-- A10
theorem test_decode_orImm : decodeBytes [0b11000011, 0b10000000] = .ok (.orImm 3 0x80, 2) := by decide
-- A14
theorem test_decode_norReg : decodeBytes [0b11011001, 0b00000010] = .ok (.norReg 1 2, 2) := by decide
-- A13
theorem test_decode_norImm : decodeBytes [0b11010000, 0b00000000] = .ok (.norImm 0 0, 2) := by decide
-- A17
theorem test_decode_cmpReg : decodeBytes [0b11101010, 0b00000001] = .ok (.cmpReg 2 1, 2) := by decide
-- A16
theorem test_decode_cmpImm : decodeBytes [0b11100000, 0b00101010] = .ok (.cmpImm 0 0x2A, 2) := by decide
-- A21
theorem test_decode_sbbReg : decodeBytes [0b11111000, 0b00000101] = .ok (.sbbReg 0 5, 2) := by decide
-- A22
theorem test_decode_sbbImm : decodeBytes [0b11110010, 0b00000001] = .ok (.sbbImm 2 1, 2) := by decide

-- The encoder gives the same words (one per format).
theorem test_encode_formats :
    encode (.mwReg 5 4) = [0b00001101, 0b00000100] ∧ encode (.mwImm 0 3) = [0b00000000, 0b00000011] ∧
    encode (.popReg 2) = [0b01001010] ∧ encode (.pushImm 0x7F) = [0b00110000, 0b01111111] ∧
    encode (.swAddr 0x8000 1) = [0b00100001, 0b00000000, 0b10000000] ∧
    encode (.ldaAddr 0xCAFE) = [0b01010000, 0b11111110, 0b11001010] := by decide

/-! ### Decoding refuses by name -/

-- X6, X7, X8, X9, X10
theorem test_decode_not_produced :
    decodeBytes [0x41] = .error .notProduced ∧ decodeBytes [0x0E, 0x00] = .error .notProduced ∧
    decodeBytes [0x08, 0x06] = .error .notProduced ∧ decodeBytes [0x31, 0x00] = .error .notProduced ∧
    decodeBytes [0x58, 0x00, 0x00] = .error .notProduced := by decide
-- X11, X12
theorem test_decode_truncated :
    decodeBytes [0x10, 0x34] = .error .truncated ∧ decodeBytes [0x90] = .error .truncated ∧
    decodeBytes [] = .error .truncated := by decide
-- X13
theorem test_decode_image :
    decodeImage [0x00, 0x03, 0x01, 0x04, 0x98, 0x01] =
      .ok [.mwImm 0 3, .mwImm 1 4, .addReg 0 1] := by decide
-- P5, the image of every mnemonic once
theorem test_decode_image_every_mnemonic :
    decodeImage [0x0D, 0x04, 0x11, 0xEF, 0xBE, 0x28, 0x30, 0x00, 0x4B, 0x50, 0x00, 0x01, 0x60, 0x10,
      0x7A, 0x03, 0x8C, 0x00, 0x91, 0x02, 0xA9, 0x02, 0xB0, 0xF0, 0xC8, 0x01, 0xDA, 0x02, 0xE3, 0x09,
      0xF8, 0x05] =
    .ok [.mwReg 5 4, .lwAddr 1 0xBEEF, .swHl 0, .pushImm 0, .popReg 3, .ldaAddr 0x0100, .jnzImm 0x10,
      .inbReg 2 3, .outbReg 0 4, .addImm 1 2, .adcReg 1 2, .andImm 0 0xF0, .orReg 0 1, .norReg 2 2,
      .cmpImm 3 9, .sbbReg 0 5] := by decide

-- The opcode table's numbering: byte 0 is the most significant byte (spec/INDEX.md).
theorem test_table_word :
    decodeTableWord 16 0x9801 = some (.addReg 0 1) ∧ decodeTableWord 8 0x4A = some (.popReg 2) ∧
    decodeTableWord 24 0x50FECA = some (.ldaAddr 0xCAFE) ∧ decodeTableWord 8 0x41 = none := by decide

/-! ### One step -/

/-- What a test looks at: the image, the fault flag and the answers of a next state. -/
def seen : Host.Outcome State Fault Refusal → Option (List Byte × Bool × List Response)
  | .next s => some (s.image, s.fault, s.responses)
  | .fault _ => none
  | .refused _ => none

/-- A block with an image and a fault flag under a policy, unbounded, no command issued. -/
def block (image : List Byte) (fault : Bool) (p : ErrorPolicy) : State :=
  { image := image, fault := fault, config := { errorPolicy := p, maxImageLen := none },
    commands := [], responses := [] }

/-- The step of the block on one command. -/
def stepOn (c : Command) (s : State) : Option (List Byte × Bool × List Response) :=
  seen (step (s.issue c))

-- M2
theorem test_exec_mwReg : seen (exec (.mwReg 0 0) (block [0xAA] false .abort)) =
    some ([0xAA, 0x08, 0x00], false, [.status (.ok [0x08, 0x00])]) := by decide
-- M3
theorem test_exec_mwImm : seen (exec (.mwImm 4 0xFF) (block [0xAA] false .abort)) =
    some ([0xAA, 0x04, 0xFF], false, [.status (.ok [0x04, 0xFF])]) := by decide
-- M6
theorem test_exec_lwAddr : seen (exec (.lwAddr 5 0xFFFF) (block [0xAA] false .abort)) =
    some ([0xAA, 0x15, 0xFF, 0xFF], false, [.status (.ok [0x15, 0xFF, 0xFF])]) := by decide
-- M8
theorem test_exec_lwHl : seen (exec (.lwHl 2) (block [0xAA] false .abort)) =
    some ([0xAA, 0x1A], false, [.status (.ok [0x1A])]) := by decide
-- M9
theorem test_exec_swAddr : seen (exec (.swAddr 0x8000 1) (block [0xAA] false .abort)) =
    some ([0xAA, 0x21, 0x00, 0x80], false, [.status (.ok [0x21, 0x00, 0x80])]) := by decide
-- M11
theorem test_exec_swHl : seen (exec (.swHl 3) (block [0xAA] false .abort)) =
    some ([0xAA, 0x2B], false, [.status (.ok [0x2B])]) := by decide
-- M12
theorem test_exec_pushReg : seen (exec (.pushReg 0) (block [0xAA] false .abort)) =
    some ([0xAA, 0x38], false, [.status (.ok [0x38])]) := by decide
-- M14
theorem test_exec_pushImm : seen (exec (.pushImm 0) (block [0xAA] false .abort)) =
    some ([0xAA, 0x30, 0x00], false, [.status (.ok [0x30, 0x00])]) := by decide
-- M17
theorem test_exec_popReg : seen (exec (.popReg 5) (block [0xAA] false .abort)) =
    some ([0xAA, 0x4D], false, [.status (.ok [0x4D])]) := by decide
-- M20
theorem test_exec_ldaAddr : seen (exec (.ldaAddr 0x0100) (block [0xAA] false .abort)) =
    some ([0xAA, 0x50, 0x00, 0x01], false, [.status (.ok [0x50, 0x00, 0x01])]) := by decide
-- J3
theorem test_exec_jnzReg : seen (exec (.jnzReg 2) (block [0xAA] false .abort)) =
    some ([0xAA, 0x6A], false, [.status (.ok [0x6A])]) := by decide
-- J4
theorem test_exec_jnzImm : seen (exec (.jnzImm 0) (block [0xAA] false .abort)) =
    some ([0xAA, 0x60, 0x00], false, [.status (.ok [0x60, 0x00])]) := by decide
-- J8
theorem test_exec_inbReg : seen (exec (.inbReg 5 5) (block [0xAA] false .abort)) =
    some ([0xAA, 0x7D, 0x05], false, [.status (.ok [0x7D, 0x05])]) := by decide
-- J6
theorem test_exec_inbImm : seen (exec (.inbImm 0 0x10) (block [0xAA] false .abort)) =
    some ([0xAA, 0x70, 0x10], false, [.status (.ok [0x70, 0x10])]) := by decide
-- J11
theorem test_exec_outbReg : seen (exec (.outbReg 2 1) (block [0xAA] false .abort)) =
    some ([0xAA, 0x89, 0x02], false, [.status (.ok [0x89, 0x02])]) := by decide
-- J12
theorem test_exec_outbImm : seen (exec (.outbImm 0xFF 5) (block [0xAA] false .abort)) =
    some ([0xAA, 0x85, 0xFF], false, [.status (.ok [0x85, 0xFF])]) := by decide
-- S3
theorem test_exec_addReg : seen (exec (.addReg 0 1) (block [0xAA] false .abort)) =
    some ([0xAA, 0x98, 0x01], false, [.status (.ok [0x98, 0x01])]) := by decide
-- A3
theorem test_exec_addImm : seen (exec (.addImm 1 2) (block [0xAA] false .abort)) =
    some ([0xAA, 0x91, 0x02], false, [.status (.ok [0x91, 0x02])]) := by decide
-- A5
theorem test_exec_adcReg : seen (exec (.adcReg 4 4) (block [0xAA] false .abort)) =
    some ([0xAA, 0xAC, 0x04], false, [.status (.ok [0xAC, 0x04])]) := by decide
-- A4
theorem test_exec_adcImm : seen (exec (.adcImm 1 0) (block [0xAA] false .abort)) =
    some ([0xAA, 0xA1, 0x00], false, [.status (.ok [0xA1, 0x00])]) := by decide
-- A8
theorem test_exec_andReg : seen (exec (.andReg 0 5) (block [0xAA] false .abort)) =
    some ([0xAA, 0xB8, 0x05], false, [.status (.ok [0xB8, 0x05])]) := by decide
-- A9
theorem test_exec_andImm : seen (exec (.andImm 0 0xF0) (block [0xAA] false .abort)) =
    some ([0xAA, 0xB0, 0xF0], false, [.status (.ok [0xB0, 0xF0])]) := by decide
-- A12
theorem test_exec_orReg : seen (exec (.orReg 0 1) (block [0xAA] false .abort)) =
    some ([0xAA, 0xC8, 0x01], false, [.status (.ok [0xC8, 0x01])]) := by decide
-- A10
theorem test_exec_orImm : seen (exec (.orImm 3 0x80) (block [0xAA] false .abort)) =
    some ([0xAA, 0xC3, 0x80], false, [.status (.ok [0xC3, 0x80])]) := by decide
-- A15
theorem test_exec_norReg : seen (exec (.norReg 2 2) (block [0xAA] false .abort)) =
    some ([0xAA, 0xDA, 0x02], false, [.status (.ok [0xDA, 0x02])]) := by decide
-- A13
theorem test_exec_norImm : seen (exec (.norImm 0 0) (block [0xAA] false .abort)) =
    some ([0xAA, 0xD0, 0x00], false, [.status (.ok [0xD0, 0x00])]) := by decide
-- A17
theorem test_exec_cmpReg : seen (exec (.cmpReg 2 1) (block [0xAA] false .abort)) =
    some ([0xAA, 0xEA, 0x01], false, [.status (.ok [0xEA, 0x01])]) := by decide
-- A18
theorem test_exec_cmpImm : seen (exec (.cmpImm 3 9) (block [0xAA] false .abort)) =
    some ([0xAA, 0xE3, 0x09], false, [.status (.ok [0xE3, 0x09])]) := by decide
-- A20
theorem test_exec_sbbReg : seen (exec (.sbbReg 5 5) (block [0xAA] false .abort)) =
    some ([0xAA, 0xFD, 0x05], false, [.status (.ok [0xFD, 0x05])]) := by decide
-- A19
theorem test_exec_sbbImm : seen (exec (.sbbImm 3 1) (block [0xAA] false .abort)) =
    some ([0xAA, 0xF3, 0x01], false, [.status (.ok [0xF3, 0x01])]) := by decide

-- E1, E2, E3, E5, through the commands: nothing appended, the slot named, fault 1
theorem test_rejections :
    stepOn (.encode .add (.reg 0) (.imm16 1)) (block [0, 3] false .abort) =
      some ([0, 3], true, [.status (.invalidOperandVariant .two)]) ∧
    stepOn (.encode .push (.imm16 0x1234) .absent) (block [0, 3] false .abort) =
      some ([0, 3], true, [.status (.invalidOperandVariant .one)]) ∧
    stepOn (.encode .lw (.reg 0) (.imm8 5)) (block [0, 3] false .abort) =
      some ([0, 3], true, [.status (.invalidOperandVariant .two)]) ∧
    stepOn (.encode .lda .absent .absent) (block [0, 3] false .abort) =
      some ([0, 3], true, [.status (.invalidOperandVariant .one)]) := by decide
-- E8, E13, E14
theorem test_rejections_of_register_slots :
    stepOn (.encode .mw (.imm8 1) (.reg 0)) (block [0, 3] false .abort) =
      some ([0, 3], true, [.status (.invalidOperandVariant .one)]) ∧
    stepOn (.encode .add (.imm16 0) (.imm16 0)) (block [0, 3] false .abort) =
      some ([0, 3], true, [.status (.invalidOperandVariant .one)]) ∧
    stepOn (.encode .sw (.imm16 0x1000) .absent) (block [0, 3] false .abort) =
      some ([0, 3], true, [.status (.invalidOperandVariant .two)]) := by decide
-- E9, E10, E11
theorem test_rejections_at_bit_level :
    stepOn (.encode .mw (.reg 6) (.imm8 0)) (block [0, 3] false .abort) =
      some ([0, 3], true, [.status (.invalidOperandVariant .one)]) ∧
    stepOn (.encode .inb (.reg 0) (.reg 7)) (block [0, 3] false .abort) =
      some ([0, 3], true, [.status (.invalidOperandVariant .two)]) ∧
    stepOn (.encode .push (.reg 0) (.imm8 0)) (block [0, 3] false .abort) =
      some ([0, 3], true, [.status (.invalidOperandVariant .two)]) := by decide
-- E15: op 0x9, a_tag Reg, a_val 0x0008
theorem test_wire_payload_too_wide :
    stepOn (unpackCommand { cmd := 2, op := 9, aTag := 1, aVal := 8, bTag := 1, bVal := 0 })
      (block [0, 3] false .abort) =
    some ([0, 3], true, [.status (.invalidOperandVariant .one)]) := by decide
-- E20, E21: the third command, after the error, under each policy
theorem test_error_policies :
    stepOn (.encode .mw (.reg 1) (.imm8 2)) (block [0, 1] true .abort) =
      some ([0, 1], true, [.status .terminated]) ∧
    stepOn (.encode .mw (.reg 1) (.imm8 2)) (block [0, 1] true .report) =
      some ([0, 1, 1, 2], true, [.status (.ok [1, 2])]) := by decide
-- V2, V3
theorem test_session_commands :
    stepOn .read (block [0, 3] false .abort) = some ([0, 3], false, [.image [0, 3] false]) ∧
    stepOn .new (block [0, 3] true .abort) = some ([], false, []) ∧
    stepOn .read (block [0, 1] true .abort) = some ([0, 1], true, [.image [0, 1] true]) := by decide
-- R104: the answer of lda(0xCAFE) on wires
theorem test_wire_reply :
    packStatus (.ok [0x50, 0xFE, 0xCA]) =
      { status := 0, errSlot := 0, n := 3, out := 0xCAFE50 } := by decide
-- The first instruction after reset, placed from its table word.
theorem test_first_instruction_after_reset :
    seen (step (State.reset.withFetchWord 16 0x0003)) =
      some ([0x00, 0x03], false, [.status (.ok [0x00, 0x03])]) := by decide

/-! ### Witnesses: the hypotheses of each statement, met together -/

/-- A block of a finite capacity with an empty image and no error. -/
def roomFor (n : Nat) : State :=
  { image := [], fault := false, config := { errorPolicy := .abort, maxImageLen := some n },
    commands := [], responses := [] }

theorem roomFor_open (n : Nat) : (roomFor n).Open := open_of_fault_false _ rfl
theorem roomFor_hasRoom (n : Nat) : (roomFor n).HasRoom n := by
  intro cap h; cases h; simp [roomFor]
theorem roomFor_full (n : Nat) : ¬ (roomFor n).HasRoom (n + 1) := by
  intro h; have := h n rfl; simp [roomFor] at this
theorem ended_not_open : ¬ (block [0] true .abort).Open := by simp [State.Open, block]
theorem report_open : (block [0] true .report).Open := open_of_report _ rfl
theorem reg5_isReg : (Operand.reg 5).IsReg := ⟨5, by decide, rfl⟩
theorem reg6_not_isReg : ¬ (Operand.reg 6).IsReg := by
  rintro ⟨c, h, hc⟩; cases hc; exact absurd h (by decide)
theorem imm16_not_isReg (w : Addr) : ¬ (Operand.imm16 w).IsReg := by rintro ⟨c, -, hc⟩; cases hc
theorem imm16_not_isImm8 (w : Addr) : ¬ (Operand.imm16 w).IsImm8 := by rintro ⟨v, hc⟩; cases hc
theorem imm8_not_isImm16 (v : Byte) : ¬ (Operand.imm8 v).IsImm16 := by rintro ⟨w, hc⟩; cases hc
theorem absent_not_isImm16 : ¬ Operand.absent.IsImm16 := by rintro ⟨w, hc⟩; cases hc
theorem absent_not_isReg : ¬ Operand.absent.IsReg := by rintro ⟨c, -, hc⟩; cases hc

theorem witness_IdleBlockHoldsItsState : State.reset.commands = [] := rfl
theorem witness_StepRunsTheFetchedWord :
    decodeTableWord 24 0x25FFFF = some (.swAddr 0xFFFF 5) := by decide

/-- The clauses of MwEncodesOrRejects, InbEncodesOrRejects and AluEncodesOrRejects: both accepted forms
at register code 5 with exactly two bytes of room, and each rejection. -/
theorem witness_DestSourceRule :
    (roomFor 2).Open ∧ (5 : RegCode).toNat ≤ 5 ∧ (roomFor 2).HasRoom 2 ∧
    ¬ (Operand.reg 6).IsReg ∧ ¬ Operand.absent.IsReg ∧
    (Operand.reg 5).IsReg ∧ ¬ (Operand.imm16 0).IsReg ∧ ¬ (Operand.imm16 0).IsImm8 :=
  ⟨roomFor_open 2, by decide, roomFor_hasRoom 2, reg6_not_isReg, absent_not_isReg, reg5_isReg,
    imm16_not_isReg 0, imm16_not_isImm8 0⟩
theorem witness_LwEncodesOrRejects :
    (roomFor 3).Open ∧ (roomFor 3).HasRoom 3 ∧ (roomFor 1).Open ∧ (roomFor 1).HasRoom 1 ∧
    (5 : RegCode).toNat ≤ 5 ∧ ¬ (Operand.reg 6).IsReg ∧
    (Operand.reg 5).IsReg ∧ ¬ (Operand.imm8 5).IsImm16 ∧ Operand.imm8 5 ≠ .absent :=
  ⟨roomFor_open 3, roomFor_hasRoom 3, roomFor_open 1, roomFor_hasRoom 1, by decide, reg6_not_isReg,
    reg5_isReg, imm8_not_isImm16 5, by decide⟩
theorem witness_SwEncodesOrRejects :
    (roomFor 3).Open ∧ (roomFor 3).HasRoom 3 ∧ (roomFor 1).Open ∧ (roomFor 1).HasRoom 1 ∧
    (5 : RegCode).toNat ≤ 5 ∧ ¬ (Operand.imm8 5).IsImm16 ∧ Operand.imm8 5 ≠ .absent ∧
    ((Operand.imm16 0x1000).IsImm16 ∨ Operand.imm16 0x1000 = .absent) ∧ ¬ Operand.absent.IsReg :=
  ⟨roomFor_open 3, roomFor_hasRoom 3, roomFor_open 1, roomFor_hasRoom 1, by decide,
    imm8_not_isImm16 5, by decide, .inl ⟨_, rfl⟩, absent_not_isReg⟩
theorem witness_PushAndJnzEncodeOrReject :
    (roomFor 1).Open ∧ (roomFor 1).HasRoom 1 ∧ (roomFor 2).Open ∧ (roomFor 2).HasRoom 2 ∧
    (5 : RegCode).toNat ≤ 5 ∧ Mnemonic.jnz ∈ [Mnemonic.push, Mnemonic.jnz] ∧
    ¬ (Operand.imm16 0x1234).IsReg ∧ ¬ (Operand.imm16 0x1234).IsImm8 ∧
    ((Operand.reg 5).IsReg ∨ (Operand.reg 5).IsImm8) ∧ Operand.imm8 0 ≠ .absent :=
  ⟨roomFor_open 1, roomFor_hasRoom 1, roomFor_open 2, roomFor_hasRoom 2, by decide, by decide,
    imm16_not_isReg _, imm16_not_isImm8 _, .inl reg5_isReg, by decide⟩
theorem witness_PopEncodesOrRejects :
    (roomFor 1).Open ∧ (roomFor 1).HasRoom 1 ∧ (5 : RegCode).toNat ≤ 5 ∧
    ¬ (Operand.reg 6).IsReg ∧ (Operand.reg 5).IsReg ∧ Operand.imm8 0 ≠ .absent :=
  ⟨roomFor_open 1, roomFor_hasRoom 1, by decide, reg6_not_isReg, reg5_isReg, by decide⟩
theorem witness_LdaEncodesOrRejects :
    (roomFor 3).Open ∧ (roomFor 3).HasRoom 3 ∧ ¬ Operand.absent.IsImm16 ∧
    (Operand.imm16 0xFFFF).IsImm16 ∧ Operand.reg 0 ≠ .absent :=
  ⟨roomFor_open 3, roomFor_hasRoom 3, absent_not_isImm16, ⟨_, rfl⟩, by decide⟩
theorem witness_OutbEncodesOrRejects :
    (roomFor 2).Open ∧ (roomFor 2).HasRoom 2 ∧ (5 : RegCode).toNat ≤ 5 ∧
    ¬ (Operand.imm16 0x10).IsReg ∧ ¬ (Operand.imm16 0x10).IsImm8 ∧
    ((Operand.reg 5).IsReg ∨ (Operand.reg 5).IsImm8) ∧ ¬ Operand.absent.IsReg :=
  ⟨roomFor_open 2, roomFor_hasRoom 2, by decide, imm16_not_isReg _, imm16_not_isImm8 _,
    .inl reg5_isReg, absent_not_isReg⟩

/-- The five clauses of EncodeCommandIsTheCommonStep. -/
theorem witness_EncodeCommandIsTheCommonStep :
    ¬ (block [0] true .abort).Open ∧
    ((block [0] true .report).Open ∧ accept .add .one (.reg 6) = false) ∧
    (accept .add .one (.reg 5) = true ∧ accept .add .two (.imm16 1) = false) ∧
    ((roomFor 1).Open ∧ accept .add .two (.reg 5) = true ∧
      ¬ (roomFor 1).HasRoom (enc .add (.reg 5) (.reg 5)).length) ∧
    (roomFor 2).HasRoom (enc .add (.reg 5) (.reg 5)).length :=
  ⟨ended_not_open, ⟨report_open, by decide⟩, ⟨by decide, by decide⟩,
    ⟨roomFor_open 1, by decide, roomFor_full 1⟩, roomFor_hasRoom 2⟩
/-- The mnemonics of each clause of AcceptanceFollowsTheTable, at the end of its list. -/
theorem witness_AcceptanceFollowsTheTable :
    Mnemonic.sbb ∈ [Mnemonic.mw, .lw, .pop, .inb, .add, .adc, .and, .or, .nor, .cmp, .sbb] ∧
    Mnemonic.outb ∈ [Mnemonic.push, .jnz, .outb] ∧
    Mnemonic.sbb ∈ [Mnemonic.mw, .inb, .add, .adc, .and, .or, .nor, .cmp, .sbb] ∧
    Mnemonic.outb ∈ [Mnemonic.sw, .outb] ∧ Mnemonic.jnz ∈ [Mnemonic.push, .pop, .lda, .jnz] := by
  decide
theorem witness_AcceptedInstructionAppendsItsBytes :
    (Instr.swAddr 0xFFFF 5).wf = true ∧ (roomFor 3).Open ∧
    (roomFor 3).HasRoom (encode (.swAddr 0xFFFF 5)).length ∧
    (accept .push .one (.imm16 0) = false ∨ accept .push .two .absent = false) ∧
    runCommand (.encode .push (.imm16 0) .absent) (roomFor 3) = .next ((roomFor 3).afterReject .one) :=
  ⟨by decide, roomFor_open 3, roomFor_hasRoom 3, by decide, rfl⟩
theorem witness_UnnamedRegisterIsRejected :
    (Instr.addReg 5 6).wf = false ∧ (roomFor 2).Open ∧
    exec (.addReg 5 5) (roomFor 2) = .next ((roomFor 2).afterOk [0x9D, 0x05]) ∧
    ((roomFor 2).afterOk [0x9D, 0x05]).responses =
      (roomFor 2).responses ++ [.status (.ok [0x9D, 0x05])] :=
  ⟨by decide, roomFor_open 2, rfl, rfl⟩
theorem witness_EncodeCommandFrame :
    runCommand (.encode .add (.reg 5) (.reg 5)) (roomFor 2) =
      .next ((roomFor 2).afterOk [0x9D, 0x05]) := rfl
/-- Each of the three cases of InstructionFrame occurs. -/
theorem witness_InstructionFrame :
    exec (.popReg 5) (roomFor 1) = .next ((roomFor 1).afterOk [0x4D]) ∧
    exec (.popReg 6) (roomFor 1) = .next ((roomFor 1).afterReject .one) ∧
    exec (.popReg 5) (block [0] true .abort) = .next (block [0] true .abort).afterTerminated :=
  ⟨rfl, rfl, rfl⟩
/-- Two states with different images of one length, and the same flag and parameters. -/
theorem witness_EncodeCommandReadsOnlyFaultAndLength :
    runCommand (.encode .pop (.reg 5) .absent) (block [1] true .report) =
      .next ((block [1] true .report).afterOk [0x4D]) ∧
    runCommand (.encode .pop (.reg 5) .absent) (block [0] true .report) =
      .next ((block [0] true .report).afterOk [0x4D]) ∧
    (block [1] true .report).fault = (block [0] true .report).fault ∧
    (block [1] true .report).config = (block [0] true .report).config ∧
    (block [1] true .report).image.length = (block [0] true .report).image.length :=
  ⟨rfl, rfl, rfl, rfl, rfl⟩
theorem witness_EncodingAfterAnError :
    ((block [0] true .abort).fault = true ∧ (block [0] true .abort).config.errorPolicy = .abort) ∧
    ((block [0] true .report).fault = true ∧
      (block [0] true .report).config.errorPolicy = .report ∧
      runCommand (.encode .pop (.reg 5) .absent) { block [0] true .report with fault := false } =
        .next ((block [0] false .report).afterOk [0x4D])) := ⟨⟨rfl, rfl⟩, rfl, rfl, rfl⟩
theorem witness_ErrorLeavesTheImage :
    step ((roomFor 1).putNext (.encode .pop (.reg 6) .absent)) =
      .next ((roomFor 1).afterReject .one) ∧
    ((roomFor 1).afterReject .one).responses =
      (roomFor 1).responses ++ [.status (.invalidOperandVariant .one)] := ⟨rfl, rfl⟩
/-- The fault flag set by a rejection, kept by a read, cleared by `new()`. -/
theorem witness_FaultFlagIsSetByRejectionClearedByNew :
    step ((roomFor 1).putNext (.encode .pop (.reg 6) .absent)) =
      .next ((roomFor 1).afterReject .one) ∧
    step ((block [0] true .abort).putNext .read) =
      .next ((block [0] true .abort).respond (.image [0] true)) ∧
    step ((block [0] true .abort).putNext .new) = .next (block [] false .abort) := ⟨rfl, rfl, rfl⟩
theorem witness_OnlyNewReopensTheSession :
    step ((block [0] true .abort).putNext .new) = .next (block [] false .abort) ∧
    ¬ ((block [0] true .abort).putNext .new).Open ∧ (block [] false .abort).Open :=
  ⟨rfl, ended_not_open, open_of_fault_false _ rfl⟩
theorem witness_ImageIsAppendOnly :
    step ((roomFor 3).putNext (commandOf (.lwAddr 5 0xFFFF))) =
      .next ((roomFor 3).afterOk [0x15, 0xFF, 0xFF]) ∧
    ((roomFor 3).putNext (commandOf (.lwAddr 5 0xFFFF))).commands.head? ≠ some .new ∧
    step ((block [0] true .abort).putNext .new) = .next (block [] false .abort) :=
  ⟨rfl, by decide, rfl⟩
theorem witness_AddressesEnterLowByteFirst :
    exec (.lwAddr 0 0x1234) (roomFor 3) = .next ((roomFor 3).afterOk [0x10, 0x34, 0x12]) ∧
    exec (.swAddr 0x1234 0) (roomFor 3) = .next ((roomFor 3).afterOk [0x20, 0x34, 0x12]) ∧
    exec (.ldaAddr 0x1234) (roomFor 3) = .next ((roomFor 3).afterOk [0x50, 0x34, 0x12]) :=
  ⟨rfl, rfl, rfl⟩
theorem witness_FullImageStopsTheCommand :
    ((Instr.popReg 5).wf = true ∧ (roomFor 0).Open ∧
      ¬ (roomFor 0).HasRoom (encode (.popReg 5)).length) ∧
    State.reset.config.maxImageLen = none :=
  ⟨⟨by decide, roomFor_open 0, roomFor_full 0⟩, rfl⟩
theorem witness_EveryCommandCompletes :
    (State.reset.putNext .read).commands = .read :: [] ∧ Command.read ≠ .reserved ∧
    (State.reset.putNext .read).config.maxImageLen = none := by decide
theorem witness_NoCommandSetsAParameter :
    step ((block [0] true .report).putNext .new) = .next (block [] false .report) := rfl
theorem witness_EarlierAnswersStand :
    step ((roomFor 0).putNext .read) = .next ((roomFor 0).respond (.image [] false)) := rfl
theorem witness_StepKeepsTheImageWithinCapacity :
    (roomFor 1).WithinCapacity ∧
    step ((roomFor 1).putNext (commandOf (.popReg 5))) = .next ((roomFor 1).afterOk [0x4D]) :=
  ⟨fun _ h => by cases h; decide, rfl⟩
theorem witness_StepKeepsTheImageDecodable :
    (block [0x4D] false .abort).Decodable ∧
    step ((block [0x4D] false .abort).putNext (commandOf (.ldaAddr 0x0100))) =
      .next ((block [0x4D] false .abort).afterOk [0x50, 0x00, 0x01]) := ⟨⟨[.popReg 5], rfl⟩, rfl⟩
/-- Two instructions and a command behind them, with exactly their three bytes of room. -/
theorem witness_ImageKeepsTheCommandOrder :
    (∀ i ∈ [Instr.mwImm 5 0xFF, Instr.popReg 5], i.wf = true) ∧ (roomFor 3).Open ∧
    (roomFor 3).HasRoom ([Instr.mwImm 5 0xFF, Instr.popReg 5].flatMap encode).length ∧
    ({ roomFor 3 with commands := [commandOf (.mwImm 5 0xFF), commandOf (.popReg 5), .read] }
        : State).commands =
      [Instr.mwImm 5 0xFF, Instr.popReg 5].map commandOf ++ [.read] :=
  ⟨by decide, roomFor_open 3, roomFor_hasRoom 3, rfl⟩
theorem witness_ImageIsTheConcatenationOfAcceptedBytes :
    Command.new ∉ ((roomFor 1).putNext (commandOf (.popReg 5))).commands.take 1 ∧
    Sys2Proof.core.run 1 ((roomFor 1).putNext (commandOf (.popReg 5))) =
      .next ((roomFor 1).afterOk [0x4D]) := ⟨by decide, rfl⟩
theorem witness_DecodeInvertsEncode : (Instr.outbReg 5 0).wf = true := by decide
theorem witness_DecodedBytesAreTheEncoding :
    decodeBytes [0x8D, 0x05, 0xFF] = .ok (.outbReg 5 5, 2) := by decide
theorem witness_ImageDecodesToItsInstructions :
    (Instr.popReg 5).wf = true ∧ encode (.popReg 5) <+: encode (.popReg 5) ∧
    ∀ i ∈ [Instr.mwImm 5 0xFF, Instr.popReg 5], i.wf = true := by decide
theorem witness_LengthIsAFunctionOfByteZero : (Instr.ldaAddr 0xFFFF).wf = true := by decide
theorem witness_NotProducedPatternsAreInvalid :
    producedByte0 0x06 = false ∧
    (producedByte0 0x0D = true ∧ 8 ≤ (0x0D : Byte).toNat % 16 ∧ lengthOfByte0 0x0D = 2 ∧
      5 < (0x06 : Byte).toNat) ∧
    ((Instr.ldaAddr 0).wf = true ∧ 2 < (encode (.ldaAddr 0)).length) := by decide
theorem witness_IllFormedWireSlotIsNeverAccepted :
    ((0 : BitVec 2) = 0 ∧ (1 : BitVec 16) ≠ 0) ∧ ((1 : BitVec 2) = 1 ∧ 5 < (6 : BitVec 16).toNat) ∧
    ((2 : BitVec 2) = 2 ∧ 255 < (256 : BitVec 16).toNat) := by decide
theorem witness_CmdElevenHasNoStep :
    ({ cmd := 3, op := 9, aTag := 1, aVal := 0, bTag := 1, bVal := 1 } : WireCommand).cmd = 3 := rfl

end Sys2Proof.Tests
end

section
/-! The register codes (10_state.md R20): `Reg.ofCode?` is the inverse of `Reg.code`. -/

namespace Sys2Proof

@[simp] theorem ofCode?_code (r : Reg) : Reg.ofCode? r.code = some r := by
  cases r <;> rfl

theorem ofCode?_eq_some_iff (c : RegCode) (r : Reg) : Reg.ofCode? c = some r ↔ r.code = c := by
  constructor
  · exact code_ofCode? c r
  · rintro rfl
    exact ofCode?_code r

/-- Settles O38: the six codes are the rows of `Reg.code`, and a code names just the register that has
it, since `Reg.ofCode?` inverts `Reg.code`. -/
theorem registerCodesAreFixed : Obligations.RegisterCodesAreFixed :=
  ⟨rfl, rfl, rfl, rfl, rfl, rfl, ofCode?_eq_some_iff⟩

end Sys2Proof
end

section
/-! What one instruction and one step can do, each said once: an instruction's call packs to its row of
the opcode table, exec is the common encode step (40_session.md R102) on the instruction's bytes, and a
step is one of four. -/

namespace Sys2Proof.Machine

variable {s t : State} {i : Instr} {mn : Mnemonic} {a b : Operand} {bs : List Byte}

/-! ### The bytes of a call (30_encoding.md R67, R71) -/

/-- The field formula of R67 on an instruction's own call gives its row of the opcode table. -/
theorem enc_call (i : Instr) : enc (mnemonicOf i) (slot1Of i) (slot2Of i) = encode i := by
  cases i <;>
    simp [mnemonicOf, slot1Of, slot2Of, enc, encode, encDestSource, encSingle, packRR, packRI, packR1,
      packI, packRA, packA, packByte0, Mnemonic.classCode, zext8]

theorem encDestSource_length_le (mn : Mnemonic) (a b : Operand) :
    (encDestSource mn a b).length ≤ 3 := by
  unfold encDestSource
  split <;> simp [packRR, packRI]

theorem encSingle_length_le (mn : Mnemonic) (a : Operand) : (encSingle mn a).length ≤ 3 := by
  unfold encSingle
  split <;> simp [packR1, packI]

/-- R47, R60: no mnemonic packs more than 3 bytes, whatever its operands. -/
theorem enc_length_le (mn : Mnemonic) (a b : Operand) : (enc mn a b).length ≤ 3 := by
  cases mn
  case mw | inb | add | adc | and | or | nor | cmp | sbb => exact encDestSource_length_le _ a b
  case outb => exact encDestSource_length_le _ b a
  case push | jnz => exact encSingle_length_le _ a
  case lw | sw | pop | lda => simp only [enc]; split <;> simp [packRA, packR1, packA]

/-! ### An instruction as the common encode step -/

/-- Dispatch through the opcode table's rows is the common step, whether or not a row is named. -/
theorem runCommand_encode (mn : Mnemonic) (a b : Operand) (s : State) :
    runCommand (.encode mn a b) s = encodeCommand mn a b s := by
  simp only [runCommand, execEncode]
  split
  case h_1 i h =>
    obtain ⟨rfl, rfl, rfl⟩ := formOf?_eq_some h
    exact exec_eq_encodeCommand i s
  case h_2 => rfl

theorem runCommand_commandOf (i : Instr) (s : State) : runCommand (commandOf i) s = exec i s := by
  rw [commandOf, runCommand_encode, exec_eq_encodeCommand]

/-- A well-formed instruction in an open session with room completes with its bytes appended. -/
theorem exec_of_wf (hw : i.wf = true) (ho : s.Open) (hr : s.HasRoom (encode i).length) :
    exec i s = .next (s.afterOk (encode i)) := by
  obtain ⟨h1, h2⟩ := (accept_call_iff_wf i).2 hw
  rw [exec_eq_encodeCommand, encodeCommand, enc_call]
  exact encodeStep_ok ho h1 h2 hr

/-- An encode command with a slot that is not accepted leaves the image as it was (R165). -/
theorem encodeCommand_image_of_reject (hrej : accept mn .one a = false ∨ accept mn .two b = false)
    (h : encodeCommand mn a b s = .next t) : t.image = s.image := by
  obtain ⟨-, rfl⟩ | ⟨-, -, rfl⟩ | ⟨-, -, -, rfl⟩ | ⟨-, h1, h2, -, -⟩ := encodeStep_next h
  · rfl
  · rfl
  · rfl
  · simp [h1, h2] at hrej

/-- Of the four answers of an encode command only `OK` appends, and it carries the bytes. -/
theorem encodeCommand_image_append (h : encodeCommand mn a b s = .next t) :
    ∃ bs : List Byte, t.image = s.image ++ bs ∧ bs.length ≤ 3 ∧
      (bs ≠ [] → t.responses = s.responses ++ [.status (.ok bs)]) := by
  obtain ⟨-, rfl⟩ | ⟨-, -, rfl⟩ | ⟨-, -, -, rfl⟩ | ⟨-, -, -, -, rfl⟩ := encodeStep_next h
  · exact ⟨[], by simp⟩
  · exact ⟨[], by simp⟩
  · exact ⟨[], by simp⟩
  · exact ⟨enc mn a b, rfl, enc_length_le mn a b, fun _ => rfl⟩

/-- The answer `OK(bs)` tells the whole next state: `bs` are the packed bytes, and they were appended. -/
theorem encodeCommand_answered_ok (h : encodeCommand mn a b s = .next t)
    (hans : t.responses = s.responses ++ [.status (.ok bs)]) :
    bs = enc mn a b ∧ t = s.afterOk bs := by
  obtain ⟨-, rfl⟩ | ⟨-, -, rfl⟩ | ⟨-, -, -, rfl⟩ | ⟨-, -, -, -, rfl⟩ := encodeStep_next h
  · simp at hans
  · simp at hans
  · simp at hans
  · obtain rfl : enc mn a b = bs := by simpa using hans
    exact ⟨rfl, rfl⟩

/-! ### One step (20_memory.md R53, 40_session.md R103) -/

theorem step_nil (h : s.commands = []) : step s = .next s := by
  simp [step, takeCommand_nil h]

theorem step_cons {c : Command} {rest : List Command} (h : s.commands = c :: rest) :
    step s = runCommand c { s with commands := rest } := by
  simp [step, takeCommand_cons h]

/-- Every next state of a step: the block was idle, or it took `new()`, `bytes()` or an encode
command. -/
theorem step_next (h : step s = .next t) :
    (s.commands = [] ∧ t = s) ∨
    (∃ rest, s.commands = .new :: rest ∧
      t = { s with image := [], fault := false, commands := rest }) ∨
    (∃ rest, s.commands = .read :: rest ∧
      t = ({ s with commands := rest } : State).respond (.image s.image s.fault)) ∨
    (∃ mn a b rest, s.commands = .encode mn a b :: rest ∧
      encodeCommand mn a b { s with commands := rest } = .next t) := by
  cases hc : s.commands with
  | nil =>
    rw [step_nil hc] at h
    cases h
    exact .inl ⟨rfl, rfl⟩
  | cons c rest =>
    rw [step_cons hc] at h
    cases c with
    | new =>
      cases h
      exact .inr (.inl ⟨rest, rfl, rfl⟩)
    | read =>
      cases h
      exact .inr (.inr (.inl ⟨rest, rfl, rfl⟩))
    | encode mn a b =>
      rw [runCommand_encode] at h
      exact .inr (.inr (.inr ⟨mn, a, b, rest, rfl, h⟩))
    | reserved => cases h

/-- The run of the host's interface, one step further. -/
theorem core_run_succ (h : step s = .next t) (k : Nat) :
    Sys2Proof.core.run (k + 1) s = Sys2Proof.core.run k t := by
  have hcore : Sys2Proof.core.step s = .next t := h
  simp only [Host.Core.run, hcore]

/-! ### Room and openness after an accepted command -/

theorem afterOk_open : (s.afterOk bs).Open ↔ s.Open := Iff.rfl

theorem hasRoom_afterOk (n : Nat) : (s.afterOk bs).HasRoom n ↔ s.HasRoom (bs.length + n) := by
  simp [State.HasRoom, Nat.add_assoc]

theorem hasRoom_of_le {m n : Nat} (hr : s.HasRoom n) (hle : m ≤ n) : s.HasRoom m :=
  fun cap hcap => (Nat.add_le_add_left hle _).trans (hr cap hcap)

end Sys2Proof.Machine
end

section
/-! The program image (20_memory.md): accepted bytes enter at its end and stay, addresses low byte
first, in the order of the commands. -/

namespace Sys2Proof.Machine

variable {s t : State} {i : Instr} {bs : List Byte}

/-! ### What an encode command appends (R47) -/

/-- Settles O18: `exec_of_wf` gives the next state, and the bytes of the common step are appended only
when both slots are accepted. -/
theorem acceptedInstructionAppendsItsBytes : Obligations.AcceptedInstructionAppendsItsBytes := by
  constructor
  · intro i s hw ho hr
    exact ⟨exec_of_wf hw ho hr, encode_length_pos i, encode_length_le i⟩
  · intro mn a b s t hrej h
    rw [runCommand_encode] at h
    exact encodeCommand_image_of_reject hrej h

/-! ### The image grows at its end (R41) -/

/-- Bytes added at the end change no byte already in the image. -/
theorem readByte_of_image_append (h : t.image = s.image ++ bs) {k : Nat} (hk : k < s.image.length) :
    t.readByte k = s.readByte k := by
  simp [State.readByte, h, List.getElem?_append_left hk]

theorem step_image_of_new (hnew : s.commands.head? = some .new) (h : step s = .next t) :
    t.image = [] := by
  obtain ⟨hc, -⟩ | ⟨rest, -, rfl⟩ | ⟨rest, hc, -⟩ | ⟨mn, a, b, rest, hc, -⟩ := step_next h
  · simp [hc] at hnew
  · rfl
  · simp [hc] at hnew
  · simp [hc] at hnew

/-- A step that does not take `new()` appends at most 3 bytes, and only those it answers `OK` with. -/
theorem step_image_append (hnew : s.commands.head? ≠ some .new) (h : step s = .next t) :
    ∃ bs : List Byte, t.image = s.image ++ bs ∧ bs.length ≤ 3 ∧
      (bs ≠ [] → t.responses = s.responses ++ [.status (.ok bs)]) := by
  obtain ⟨-, rfl⟩ | ⟨rest, hc, -⟩ | ⟨rest, -, rfl⟩ | ⟨mn, a, b, rest, -, he⟩ := step_next h
  · exact ⟨[], by simp⟩
  · simp [hc] at hnew
  · exact ⟨[], by simp⟩
  · simpa using encodeCommand_image_append he

/-- Settles O27: a step on `new()` empties the image, and every other one appends, so that every earlier
byte reads as before. -/
theorem imageIsAppendOnly : Obligations.ImageIsAppendOnly := by
  intro s t h
  refine ⟨fun hnew => ?_, fun hnew => step_image_of_new hnew h⟩
  obtain ⟨bs, himg, hlen, hans⟩ := step_image_append hnew h
  exact ⟨fun k hk => readByte_of_image_append himg hk, bs, himg, hlen, hans⟩

/-! ### Byte order (R43, R44) -/

/-- The byte `k` places past the old end of the image is the byte `k` of what was appended. -/
theorem readByte_afterOk (s : State) (bs : List Byte) (k : Nat) :
    (s.afterOk bs).readByte (s.image.length + k) = bs[k]? := by
  simp [State.readByte, List.getElem?_append_right]

theorem exec_answered_ok (h : exec i s = .next t)
    (hans : t.responses = s.responses ++ [.status (.ok bs)]) : bs = encode i ∧ t = s.afterOk bs := by
  rw [exec_eq_encodeCommand] at h
  rw [← enc_call i]
  exact encodeCommand_answered_ok h hans

/-- The three address forms share format RA (30_encoding.md R68); format A of lda is RA with primary
register field 0. -/
theorem encode_of_address_form {r : RegCode} {w : Addr}
    (hi : i = .lwAddr r w ∨ i = .swAddr w r ∨ i = .ldaAddr w) :
    ∃ p : RegCode, encode i = packRA (mnemonicOf i) p w := by
  rw [← enc_call i]
  obtain rfl | rfl | rfl := hi
  · exact ⟨r, rfl⟩
  · exact ⟨r, rfl⟩
  · exact ⟨0, rfl⟩

/-- Settles O28: an answer `OK` means the bytes of format RA stand at the old end of the image, and the
byte 0 packed there has its mnemonic's class. -/
theorem addressesEnterLowByteFirst : Obligations.AddressesEnterLowByteFirst := by
  intro s t i r w hi h hans
  obtain ⟨-, rfl⟩ := exec_answered_ok h hans
  obtain ⟨p, hp⟩ := encode_of_address_form hi
  have hbyte (k : Nat) : (s.afterOk (encode i)).readByte (s.image.length + k) =
      (packRA (mnemonicOf i) p w)[k]? := by
    rw [readByte_afterOk, hp]
  refine ⟨?_, hbyte 1, hbyte 2, hbyte 3⟩
  rw [← Nat.add_zero s.image.length, hbyte 0]
  exact congrArg some (byte0Class_pack _ _ _)

/-! ### Command order (R54) -/

/-- A step on the call of a well-formed instruction, in an open session with room. -/
theorem step_commandOf {rest : List Command} (hc : s.commands = commandOf i :: rest)
    (hw : i.wf = true) (ho : s.Open) (hr : s.HasRoom (encode i).length) :
    step s = .next (({ s with commands := rest } : State).afterOk (encode i)) := by
  rw [step_cons hc, runCommand_commandOf]
  exact exec_of_wf hw ho hr

/-- Settles O36, by induction on the instructions: each step appends its own bytes and leaves a state
that is open and has room for the rest. -/
theorem imageKeepsTheCommandOrder : Obligations.ImageKeepsTheCommandOrder := by
  intro is rest
  induction is with
  | nil =>
    rintro s - - - rfl
    simp [Host.Core.run, okResponses]
  | cons i is ih =>
    intro s hwf ho hr hc
    obtain ⟨hw, hws⟩ := List.forall_mem_cons.1 hwf
    rw [List.flatMap_cons, List.length_append] at hr
    rw [List.map_cons, List.cons_append] at hc
    have hstep := step_commandOf hc hw ho (hasRoom_of_le hr (Nat.le_add_right _ _))
    have hrest := ih (({ s with commands := is.map commandOf ++ rest } : State).afterOk (encode i)) hws
      (afterOk_open.2 ho) ((hasRoom_afterOk _).2 hr) rfl
    refine (core_run_succ hstep _).trans (hrest.trans ?_)
    simp [okResponses]

end Sys2Proof.Machine
end

section
/-! The encoding session (40_session.md): which operands a slot accepts, and what of the state an encode
command reads. -/

namespace Sys2Proof.Machine

variable {s s' t t' : State} {mn : Mnemonic} {a b : Operand} {bs bs' : List Byte}

/-! ### Acceptance (R106) -/

/-- Mnemonics that share a check in a slot accept there just the operands the check is about. -/
theorem accept_iff_of_shared_check {mns : List Mnemonic} {i : Slot} {check : Operand → Bool}
    {P : Operand → Prop} (hrow : ∀ mn ∈ mns, accept mn i = check)
    (hcheck : ∀ x, check x = true ↔ P x) : ∀ mn ∈ mns, ∀ x, (accept mn i x = true ↔ P x) := by
  intro mn hmn x
  rw [hrow mn hmn]
  exact hcheck x

/-- Settles O16: each clause is one of the five checks, and its mnemonics are those that share it. -/
theorem acceptanceFollowsTheTable : Obligations.AcceptanceFollowsTheTable :=
  ⟨accept_iff_of_shared_check (by simp [accept, funext_iff]) acceptsReg_iff,
    acceptsAddrOrAbsent_iff,
    accept_iff_of_shared_check (by simp [accept, funext_iff]) acceptsRegImm8_iff,
    acceptsAddr_iff,
    accept_iff_of_shared_check (by simp [accept, funext_iff]) acceptsRegImm8_iff,
    acceptsAddrOrAbsent_iff,
    accept_iff_of_shared_check (by simp [accept, funext_iff]) acceptsReg_iff,
    accept_iff_of_shared_check (by simp [accept, funext_iff]) acceptsAbsent_iff⟩

/-! ### What an encode command reads (R109) -/

theorem open_congr (hf : s.fault = s'.fault) (hcfg : s.config = s'.config) : s.Open ↔ s'.Open := by
  simp [State.Open, hf, hcfg]

theorem hasRoom_congr (hcfg : s.config = s'.config) (hlen : s.image.length = s'.image.length)
    (n : Nat) : s.HasRoom n ↔ s'.HasRoom n := by
  simp [State.HasRoom, hcfg, hlen]

/-- Two answers `OK` to one command carry the same bytes: those its operands pack to. -/
theorem encodeCommand_ok_bytes_unique
    (h : encodeCommand mn a b s = .next t) (hans : t.responses = s.responses ++ [.status (.ok bs)])
    (h' : encodeCommand mn a b s' = .next t')
    (hans' : t'.responses = s'.responses ++ [.status (.ok bs')]) : bs = bs' :=
  (encodeCommand_answered_ok h hans).1.trans (encodeCommand_answered_ok h' hans').1.symm

/-- The guards of the common encode step read the fault flag, the parameters and the image's length, so
states that agree on these take the same one of its four branches. -/
theorem encodeStep_congr {a1 a2 : Bool} (hf : s.fault = s'.fault) (hcfg : s.config = s'.config)
    (hlen : s.image.length = s'.image.length) (h : encodeStep a1 a2 bs s = .next t) :
    ∃ (t' : State) (st : Status), encodeStep a1 a2 bs s' = .next t' ∧
      t.responses = s.responses ++ [.status st] ∧ t'.responses = s'.responses ++ [.status st] ∧
      t.fault = t'.fault := by
  have hopen := open_congr hf hcfg
  have hroom := hasRoom_congr hcfg hlen bs.length
  obtain ⟨ho, rfl⟩ | ⟨ho, h1, rfl⟩ | ⟨ho, h1, h2, rfl⟩ | ⟨ho, h1, h2, hr, rfl⟩ := encodeStep_next h
  · exact ⟨_, _, encodeStep_ended (mt hopen.2 ho), rfl, rfl, hf⟩
  · exact ⟨_, _, encodeStep_reject_one (hopen.1 ho) h1, rfl, rfl, rfl⟩
  · exact ⟨_, _, encodeStep_reject_two (hopen.1 ho) h1 h2, rfl, rfl, rfl⟩
  · exact ⟨_, _, encodeStep_ok (hopen.1 ho) h1 h2 (hroom.1 hr), rfl, rfl, hf⟩

/-- Settles O22: an encode command is the common step on packed bytes that no state enters, and its
guards agree on states that agree on what they read. -/
theorem encodeCommandReadsOnlyFaultAndLength : Obligations.EncodeCommandReadsOnlyFaultAndLength := by
  unfold Obligations.EncodeCommandReadsOnlyFaultAndLength
  simp only [runCommand_encode]
  constructor
  · intro mn a b s s' t t' bs bs' h hans h' hans'
    exact encodeCommand_ok_bytes_unique h hans h' hans'
  · intro mn a b s s' t hf hcfg hlen h
    exact encodeStep_congr hf hcfg hlen h

end Sys2Proof.Machine
end

section
/-! The clauses of a mnemonic's rule (40_session.md R102): its accepted call, as a command and as an
instruction, and the rejection of either slot. Then the move, memory and stack mnemonics
(41_move_memory_stack.md), with jnz, which shares push's forms. -/

namespace Sys2Proof.Machine

variable {s : State} {i : Instr} {mn : Mnemonic} {a b : Operand} {bs : List Byte}

/-! ### The clauses, for any mnemonic -/

/-- The accepted call of an instruction is that instruction, and appends its row's bytes. -/
theorem runCommand_accepted (hc : commandOf i = .encode mn a b) (hbs : encode i = bs) (ho : s.Open)
    (h1 : accept mn .one a = true) (h2 : accept mn .two b = true) (hr : s.HasRoom bs.length) :
    runCommand (.encode mn a b) s = exec i s ∧ exec i s = .next (s.afterOk bs) := by
  cases hc
  cases hbs
  exact ⟨runCommand_commandOf i s, exec_of_wf ((accept_call_iff_wf i).1 ⟨h1, h2⟩) ho hr⟩

theorem runCommand_reject_one (ho : s.Open) (h1 : accept mn .one a = false) :
    runCommand (.encode mn a b) s = .next (s.afterReject .one) := by
  rw [runCommand_encode]
  exact encodeStep_reject_one ho h1

theorem runCommand_reject_two (ho : s.Open) (h1 : accept mn .one a = true)
    (h2 : accept mn .two b = false) :
    runCommand (.encode mn a b) s = .next (s.afterReject .two) := by
  rw [runCommand_encode]
  exact encodeStep_reject_two ho h1 h2

/-! ### A register and a register or immediate (R110, R131, R140) -/

/-- The rule holds of a mnemonic whose two instructions have such calls and bytes, and whose slots have
the checks `{Reg}` and `{Reg, Imm8}`. -/
theorem destSourceRule_of_rows {top : Byte} {mkReg : RegCode → RegCode → Instr}
    {mkImm : RegCode → Byte → Instr}
    (hcReg : ∀ d r, commandOf (mkReg d r) = .encode mn (.reg d) (.reg r))
    (hcImm : ∀ d v, commandOf (mkImm d v) = .encode mn (.reg d) (.imm8 v))
    (hbReg : ∀ d r, encode (mkReg d r) = [top ||| 0x08 ||| d.setWidth 8, r.setWidth 8])
    (hbImm : ∀ d v, encode (mkImm d v) = [top ||| d.setWidth 8, v])
    (hone : ∀ x, accept mn .one x = acceptsReg x) (htwo : ∀ x, accept mn .two x = acceptsRegImm8 x) :
    DestSourceRule mn top mkReg mkImm := by
  have one (x : Operand) : accept mn .one x = true ↔ x.IsReg := by rw [hone, acceptsReg_iff]
  have two (x : Operand) : accept mn .two x = true ↔ x.IsReg ∨ x.IsImm8 := by
    rw [htwo, acceptsRegImm8_iff]
  intro s ho
  refine ⟨fun d r hd hr hroom => ?_, fun d v hd hroom => ?_, fun a b ha => ?_, fun a b ha hb hb' => ?_⟩
  · exact runCommand_accepted (hcReg d r) (hbReg d r) ho ((one _).2 ⟨d, hd, rfl⟩)
      ((two _).2 (.inl ⟨r, hr, rfl⟩)) hroom
  · exact runCommand_accepted (hcImm d v) (hbImm d v) ho ((one _).2 ⟨d, hd, rfl⟩)
      ((two _).2 (.inr ⟨v, rfl⟩)) hroom
  · exact runCommand_reject_one ho ((hone a).trans ((acceptsReg_eq_false a).2 ha))
  · exact runCommand_reject_two ho ((one a).2 ha)
      ((htwo b).trans ((acceptsRegImm8_eq_false b).2 ⟨hb, hb'⟩))

/-- Settles O6: mw's rows and slot checks are those of the shared rule. -/
theorem mwEncodesOrRejects : Obligations.MwEncodesOrRejects :=
  destSourceRule_of_rows (fun _ _ => rfl) (fun _ _ => rfl) (fun _ _ => rfl) (fun _ _ => rfl)
    (fun _ => rfl) (fun _ => rfl)

/-! ### A register and an address, written or implicit (R111, R112) -/

/-- Settles O7: slot 1 has the check `{Reg}` and slot 2 the check `{Imm16, absent}`. -/
theorem lwEncodesOrRejects : Obligations.LwEncodesOrRejects := by
  intro s ho
  refine ⟨fun d w hd hr => ?_, fun d hd hr => ?_, fun a b ha => ?_, fun a b ha hb hb' => ?_⟩
  · exact runCommand_accepted rfl rfl ho ((acceptReg_iff d).2 hd) rfl hr
  · exact runCommand_accepted rfl rfl ho ((acceptReg_iff d).2 hd) rfl hr
  · exact runCommand_reject_one ho ((acceptsReg_eq_false a).2 ha)
  · exact runCommand_reject_two ho ((acceptsReg_iff a).2 ha)
      ((acceptsAddrOrAbsent_eq_false b).2 ⟨hb, hb'⟩)

/-- Settles O8: the slot checks of lw the other way round, and the register of slot 2 in byte 0. -/
theorem swEncodesOrRejects : Obligations.SwEncodesOrRejects := by
  intro s ho
  refine ⟨fun w r hr hroom => ?_, fun r hr hroom => ?_, fun a b ha ha' => ?_, fun a b ha hb => ?_⟩
  · exact runCommand_accepted rfl rfl ho rfl ((acceptReg_iff r).2 hr) hroom
  · exact runCommand_accepted rfl rfl ho rfl ((acceptReg_iff r).2 hr) hroom
  · exact runCommand_reject_one ho ((acceptsAddrOrAbsent_eq_false a).2 ⟨ha, ha'⟩)
  · exact runCommand_reject_two ho ((acceptsAddrOrAbsent_iff a).2 ha) ((acceptsReg_eq_false b).2 hb)

/-! ### One operand (R113, R114, R130) -/

/-- push and jnz share the checks of both slots: `{Reg, Imm8}` and `{absent}`. -/
theorem accept_push_jnz (hmn : mn ∈ [Mnemonic.push, .jnz]) (x : Operand) :
    accept mn .one x = acceptsRegImm8 x ∧ accept mn .two x = acceptsAbsent x := by
  obtain rfl | rfl : mn = .push ∨ mn = .jnz := by simpa using hmn
  · exact ⟨rfl, rfl⟩
  · exact ⟨rfl, rfl⟩

/-- Settles O9: the two mnemonics differ in their class alone, and the rejections depend only on the
checks they share. -/
theorem pushAndJnzEncodeOrReject : Obligations.PushAndJnzEncodeOrReject := by
  intro s ho
  refine ⟨fun r hr hroom => ?_, fun v hroom => ?_, fun mn hmn a b ha ha' => ?_,
    fun mn hmn a b ha hb => ?_⟩
  · have hacc := (acceptReg_iff r).2 hr
    obtain ⟨hpush, hpush'⟩ := runCommand_accepted (i := .pushReg r) rfl rfl ho hacc rfl hroom
    obtain ⟨hjnz, hjnz'⟩ := runCommand_accepted (i := .jnzReg r) rfl rfl ho hacc rfl hroom
    exact ⟨hpush, hpush', hjnz, hjnz'⟩
  · obtain ⟨hpush, hpush'⟩ := runCommand_accepted (i := .pushImm v) rfl rfl ho rfl rfl hroom
    obtain ⟨hjnz, hjnz'⟩ := runCommand_accepted (i := .jnzImm v) rfl rfl ho rfl rfl hroom
    exact ⟨hpush, hpush', hjnz, hjnz'⟩
  · obtain ⟨hone, -⟩ := accept_push_jnz hmn a
    exact runCommand_reject_one ho (hone.trans ((acceptsRegImm8_eq_false a).2 ⟨ha, ha'⟩))
  · obtain ⟨hone, -⟩ := accept_push_jnz hmn a
    obtain ⟨-, htwo⟩ := accept_push_jnz hmn b
    exact runCommand_reject_two ho (hone.trans ((acceptsRegImm8_iff a).2 ha))
      (htwo.trans ((acceptsAbsent_eq_false b).2 hb))

/-- Settles O10: slot 1 has the check `{Reg}`, with no immediate form, and slot 2 the check
`{absent}`. -/
theorem popEncodesOrRejects : Obligations.PopEncodesOrRejects := by
  intro s ho
  refine ⟨fun d hd hr => ?_, fun a b ha => ?_, fun a b ha hb => ?_⟩
  · exact runCommand_accepted rfl rfl ho ((acceptReg_iff d).2 hd) rfl hr
  · exact runCommand_reject_one ho ((acceptsReg_eq_false a).2 ha)
  · exact runCommand_reject_two ho ((acceptsReg_iff a).2 ha) ((acceptsAbsent_eq_false b).2 hb)

end Sys2Proof.Machine
end

section
/-! The port input and output mnemonics (42_jump_io.md). -/

namespace Sys2Proof.Machine

/-- Settles O12: inb's rows and slot checks are those of the rule that mw has too, under class 7. -/
theorem inbEncodesOrRejects : Obligations.InbEncodesOrRejects :=
  destSourceRule_of_rows (fun _ _ => rfl) (fun _ _ => rfl) (fun _ _ => rfl) (fun _ _ => rfl)
    (fun _ => rfl) (fun _ => rfl)

/-- Settles O13: the slot checks of inb the other way round, with the register of slot 2 in byte 0. -/
theorem outbEncodesOrRejects : Obligations.OutbEncodesOrRejects := by
  intro s ho
  refine ⟨fun q r hq hr hroom => ?_, fun v r hr hroom => ?_, fun a b ha ha' => ?_,
    fun a b ha hb => ?_⟩
  · exact runCommand_accepted rfl rfl ho ((acceptReg_iff q).2 hq) ((acceptReg_iff r).2 hr) hroom
  · exact runCommand_accepted rfl rfl ho rfl ((acceptReg_iff r).2 hr) hroom
  · exact runCommand_reject_one ho ((acceptsRegImm8_eq_false a).2 ⟨ha, ha'⟩)
  · exact runCommand_reject_two ho ((acceptsRegImm8_iff a).2 ha) ((acceptsReg_eq_false b).2 hb)

end Sys2Proof.Machine
end

section
/-! The arithmetic and logic mnemonics (43_alu.md). -/

namespace Sys2Proof.Machine

/-- Settles O14: R140 gives the seven mnemonics the rule that mw and inb have too, so for each of them
the two rows and the two slot checks are those of the shared rule; only the class differs. -/
theorem aluEncodesOrRejects : Obligations.AluEncodesOrRejects := by
  refine ⟨?add, ?adc, ?and, ?or, ?nor, ?cmp, ?sbb⟩ <;>
    exact destSourceRule_of_rows (fun _ _ => rfl) (fun _ _ => rfl) (fun _ _ => rfl) (fun _ _ => rfl)
      (fun _ => rfl) (fun _ => rfl)

end Sys2Proof.Machine
end

section
/-! The reference decoder against the encoder (30_encoding.md section 8): each inverts the other at
the head of any bytes, arm by arm. -/

namespace Sys2Proof.Machine

variable {i : Instr} {n : Nat} {mn : Mnemonic} {m : Bool} {p r : RegCode} {b : Byte}
  {bytes rest : List Byte}

theorem wf_iff : i.wf = true ↔ ∀ c ∈ i.regCodes, c.toNat ≤ 5 := by
  simp [Instr.wf, RegCode.named]

/-! ### The decoder's arms on the bytes of a format (R68, R90) -/

section Arms

variable {mkReg : RegCode → RegCode → Instr} {mkImm : RegCode → Byte → Instr}
  {mkAddr : RegCode → Addr → Instr} {mkHl mkReg1 : RegCode → Instr} {mkImm1 : Byte → Instr}

theorem decodeRegOrImm_reg (hp : p.toNat ≤ 5) (hr : r.toNat ≤ 5) :
    decodeRegOrImm mkReg mkImm true p (zext8 r :: rest) = .ok (mkReg p r, 2) := by
  simp [decodeRegOrImm, not_lt.2 hp, not_lt.2 hr, zext8_toNat, zext8_low]

theorem decodeRegOrImm_imm (hp : p.toNat ≤ 5) :
    decodeRegOrImm mkReg mkImm false p (b :: rest) = .ok (mkImm p b, 2) := by
  simp [decodeRegOrImm, not_lt.2 hp]

theorem decodeAddrOrHl_hl (hp : p.toNat ≤ 5) :
    decodeAddrOrHl mkAddr mkHl true p rest = .ok (mkHl p, 1) := by
  simp [decodeAddrOrHl, not_lt.2 hp]

theorem decodeAddrOrHl_addr (hp : p.toNat ≤ 5) (w : Addr) :
    decodeAddrOrHl mkAddr mkHl false p (addrLo w :: addrHi w :: rest) = .ok (mkAddr p w, 3) := by
  simp [decodeAddrOrHl, not_lt.2 hp, addrOf_lo_hi]

theorem decodeSingle_reg (hp : p.toNat ≤ 5) :
    decodeSingle mkReg1 mkImm1 true p rest = .ok (mkReg1 p, 1) := by
  simp [decodeSingle, not_lt.2 hp]

theorem decodeSingle_imm :
    decodeSingle mkReg1 mkImm1 false 0 (b :: rest) = .ok (mkImm1 b, 2) := by
  simp [decodeSingle]

theorem decodePop_reg (hp : p.toNat ≤ 5) : decodePop true p = .ok (.popReg p, 1) := by
  simp [decodePop, not_lt.2 hp]

theorem decodeLda_addr (w : Addr) :
    decodeLda false 0 (addrLo w :: addrHi w :: rest) = .ok (.ldaAddr w, 3) := by
  simp [decodeLda, addrOf_lo_hi]

/-! ### An arm that answers an instruction has read its bytes -/

/-- The bytes begin with the encoding of the well-formed instruction `i`, which has length `n`. -/
def Reads (bytes : List Byte) (i : Instr) (n : Nat) : Prop :=
  i.wf = true ∧ n = (encode i).length ∧ bytes.take n = encode i

theorem reads_of_encode {bs : List Byte} (hw : i.wf = true) (hbs : encode i = bs) :
    Reads (bs ++ rest) i bs.length := by
  subst hbs
  exact ⟨hw, rfl, by simp⟩

theorem zext8_setWidth_of_named (h : b.toNat ≤ 5) : zext8 (b.setWidth 3) = b := by
  revert b; decide

theorem toNat_setWidth_of_named (h : b.toNat ≤ 5) : (b.setWidth 3).toNat ≤ 5 := by
  revert b; decide

theorem reads_of_decodeRegOrImm
    (hwReg : ∀ p r, p.toNat ≤ 5 → r.toNat ≤ 5 → (mkReg p r).wf = true)
    (hwImm : ∀ p v, p.toNat ≤ 5 → (mkImm p v).wf = true)
    (hReg : ∀ p r, encode (mkReg p r) = packRR mn p r)
    (hImm : ∀ p v, encode (mkImm p v) = packRI mn p v)
    (h : decodeRegOrImm mkReg mkImm m p rest = .ok (i, n)) :
    Reads (packByte0 mn m p :: rest) i n := by
  unfold decodeRegOrImm at h
  split at h
  case isTrue => cases h
  case isFalse hp =>
    rw [not_lt] at hp
    cases rest with
    | nil => cases h
    | cons b1 rest =>
      cases m with
      | false =>
        cases h
        exact reads_of_encode (hwImm p b1 hp) (hImm p b1)
      | true =>
        by_cases hb : 5 < b1.toNat
        · simp [hb] at h
        · obtain ⟨rfl, rfl⟩ : mkReg p (b1.setWidth 3) = i ∧ 2 = n := by simpa [hb] using h
          rw [not_lt] at hb
          have hbs := hReg p (b1.setWidth 3)
          rw [packRR, zext8_setWidth_of_named hb] at hbs
          exact reads_of_encode (hwReg p _ hp (toNat_setWidth_of_named hb)) hbs

theorem reads_of_decodeAddrOrHl
    (hwAddr : ∀ p w, p.toNat ≤ 5 → (mkAddr p w).wf = true)
    (hwHl : ∀ p, p.toNat ≤ 5 → (mkHl p).wf = true)
    (hAddr : ∀ p w, encode (mkAddr p w) = packRA mn p w)
    (hHl : ∀ p, encode (mkHl p) = packR1 mn p)
    (h : decodeAddrOrHl mkAddr mkHl m p rest = .ok (i, n)) :
    Reads (packByte0 mn m p :: rest) i n := by
  unfold decodeAddrOrHl at h
  split at h
  case isTrue => cases h
  case isFalse hp =>
    rw [not_lt] at hp
    cases m with
    | true =>
      cases h
      exact reads_of_encode (hwHl p hp) (hHl p)
    | false =>
      match rest, h with
      | lo :: hi :: rest, h =>
        cases h
        have hbs := hAddr p (addrOf lo hi)
        rw [packRA, addrLo_addrOf, addrHi_addrOf] at hbs
        exact reads_of_encode (hwAddr p _ hp) hbs

theorem reads_of_decodeSingle
    (hwReg : ∀ p, p.toNat ≤ 5 → (mkReg1 p).wf = true) (hwImm : ∀ v, (mkImm1 v).wf = true)
    (hReg : ∀ p, encode (mkReg1 p) = packR1 mn p) (hImm : ∀ v, encode (mkImm1 v) = packI mn v)
    (h : decodeSingle mkReg1 mkImm1 m p rest = .ok (i, n)) :
    Reads (packByte0 mn m p :: rest) i n := by
  unfold decodeSingle at h
  cases m with
  | true =>
    by_cases hp : 5 < p.toNat
    · simp [hp] at h
    · obtain ⟨rfl, rfl⟩ : mkReg1 p = i ∧ 1 = n := by simpa [hp] using h
      exact reads_of_encode (hwReg p (not_lt.1 hp)) (hReg p)
  | false =>
    by_cases hp : p = 0
    · subst hp
      cases rest with
      | nil => cases h
      | cons b1 rest =>
        cases h
        exact reads_of_encode (hwImm b1) (hImm b1)
    · rw [if_neg (by simp), if_pos hp] at h
      cases h

theorem reads_of_decodePop (h : decodePop m p = .ok (i, n)) :
    Reads (packByte0 .pop m p :: rest) i n := by
  unfold decodePop at h
  split at h
  case isTrue => cases h
  case isFalse hc =>
    obtain ⟨hm, hp⟩ := not_or.1 hc
    rw [Bool.not_eq_false] at hm
    subst hm
    cases h
    exact reads_of_encode (by simpa [Instr.wf, Instr.regCodes, RegCode.named] using hp)
      (enc_call (.popReg p)).symm

theorem reads_of_decodeLda (h : decodeLda m p rest = .ok (i, n)) :
    Reads (packByte0 .lda m p :: rest) i n := by
  unfold decodeLda at h
  split at h
  case isTrue => cases h
  case isFalse hc =>
    obtain ⟨hm, hp⟩ := not_or.1 hc
    rw [Bool.not_eq_true] at hm
    obtain rfl := not_not.1 hp
    subst hm
    match rest, h with
    | lo :: hi :: rest, h =>
      cases h
      have hbs := (enc_call (.ldaAddr (addrOf lo hi))).symm
      exact reads_of_encode rfl (by simpa [enc, slot1Of, mnemonicOf, packA] using hbs)

end Arms

/-! ### The two directions at the head of the bytes -/

/-- R91: the decoder gives a well-formed instruction back from its encoding, whatever follows. -/
theorem decodeBytes_encode_append (hw : i.wf = true) (rest : List Byte) :
    decodeBytes (encode i ++ rest) = .ok (i, (encode i).length) := by
  have hnamed {c : RegCode} (hc : c ∈ i.regCodes) : c.toNat ≤ 5 := wf_iff.1 hw c hc
  rw [← enc_call i]
  cases i <;>
    simp only [mnemonicOf, slot1Of, slot2Of, enc, encDestSource, encSingle, packRR, packRI, packR1, packI,
      packRA, packA, List.cons_append, List.nil_append, decodeBytes, byte0Class_pack, ofClass_classCode,
      byte0Mode_pack, byte0Prim_pack]
  case mwReg | inbReg | outbReg | addReg | adcReg | andReg | orReg | norReg | cmpReg | sbbReg =>
    exact decodeRegOrImm_reg (hnamed (by simp [Instr.regCodes])) (hnamed (by simp [Instr.regCodes]))
  case mwImm | inbImm | outbImm | addImm | adcImm | andImm | orImm | norImm | cmpImm | sbbImm =>
    exact decodeRegOrImm_imm (hnamed (by simp [Instr.regCodes]))
  case lwHl | swHl => exact decodeAddrOrHl_hl (hnamed (by simp [Instr.regCodes]))
  case lwAddr | swAddr => exact decodeAddrOrHl_addr (hnamed (by simp [Instr.regCodes])) _
  case pushReg | jnzReg => exact decodeSingle_reg (hnamed (by simp [Instr.regCodes]))
  case pushImm | jnzImm => exact decodeSingle_imm
  case popReg => exact decodePop_reg (hnamed (by simp [Instr.regCodes]))
  case ldaAddr => exact decodeLda_addr _

/-- The other direction: what the decoder answers is what stands at the head of the bytes. -/
theorem reads_of_decodeBytes (h : decodeBytes bytes = .ok (i, n)) : Reads bytes i n := by
  cases bytes with
  | nil => cases h
  | cons b rest =>
    rw [← packByte0_fields b] at h ⊢
    generalize Mnemonic.ofClass (byte0Class b) = mn, byte0Mode b = m, byte0Prim b = p at h ⊢
    simp only [decodeBytes, byte0Class_pack, ofClass_classCode, byte0Mode_pack, byte0Prim_pack] at h
    cases mn
    case mw | inb | outb | add | adc | and | or | nor | cmp | sbb =>
      refine reads_of_decodeRegOrImm ?_ ?_ (fun p r => ?_) (fun p v => ?_) h
      · simp +contextual [wf_iff, Instr.regCodes]
      · simp +contextual [wf_iff, Instr.regCodes]
      · exact (enc_call _).symm
      · exact (enc_call _).symm
    case lw | sw =>
      refine reads_of_decodeAddrOrHl ?_ ?_ (fun p w => ?_) (fun p => ?_) h
      · simp +contextual [wf_iff, Instr.regCodes]
      · simp +contextual [wf_iff, Instr.regCodes]
      · exact (enc_call _).symm
      · exact (enc_call _).symm
    case push | jnz =>
      refine reads_of_decodeSingle ?_ ?_ (fun p => ?_) (fun v => ?_) h
      · simp +contextual [wf_iff, Instr.regCodes]
      · simp +contextual [wf_iff, Instr.regCodes]
      · exact (enc_call _).symm
      · exact (enc_call _).symm
    case pop => exact reads_of_decodePop h
    case lda => exact reads_of_decodeLda h

end Sys2Proof.Machine
end

section
/-! The image as instructions, and the patterns that no instruction begins with (30_encoding.md sections
6 to 8). -/

namespace Sys2Proof.Machine

variable {i j : Instr} {n : Nat} {b : Byte} {is : List Instr} {bytes more : List Byte}

/-! ### Round trip (R91, R92) -/

/-- Settles O41: the bytes before the place are dropped, and the decoder reads the encoding whatever
follows it. -/
theorem decodeInvertsEncode : Obligations.DecodeInvertsEncode := by
  intro i before after hw
  rw [decodeAt, List.append_assoc, List.drop_left]
  exact decodeBytes_encode_append hw after

/-- Settles O42: each arm of the decoder has read the bytes of the instruction it answers. -/
theorem decodedBytesAreTheEncoding : Obligations.DecodedBytesAreTheEncoding :=
  fun _ _ _ h => reads_of_decodeBytes h

/-- The bytes an answer was read from, and those left over. -/
theorem eq_encode_append_of_decodeBytes (h : decodeBytes bytes = .ok (i, n)) :
    i.wf = true ∧ bytes = encode i ++ bytes.drop n := by
  obtain ⟨hw, -, htake⟩ := reads_of_decodeBytes h
  refine ⟨hw, ?_⟩
  rw [← htake, List.take_append_drop]

/-- The decoder reads the longer encoding as either instruction, so they are one. -/
theorem eq_of_encode_prefix (hi : i.wf = true) (hj : j.wf = true) (h : encode i <+: encode j) :
    i = j := by
  obtain ⟨tail, htail⟩ := h
  have hdi := decodeBytes_encode_append hi tail
  have hdj := decodeBytes_encode_append hj []
  rw [List.append_nil, ← htail, hdi] at hdj
  injection hdj with hpair
  exact congrArg Prod.fst hpair

/-! ### Whole images -/

theorem encode_ne_nil (i : Instr) : encode i ≠ [] := List.ne_nil_of_length_pos (encode_length_pos i)

/-- One round of `decodeUpTo` takes one encoding off the front. -/
theorem decodeUpTo_encode_append {fuel : Nat} (hw : i.wf = true)
    (h : decodeUpTo fuel bytes = .ok is) :
    decodeUpTo (fuel + 1) (encode i ++ bytes) = .ok (i :: is) := by
  have hd := decodeBytes_encode_append hw bytes
  have hdrop : (encode i ++ bytes).drop (encode i).length = bytes := List.drop_left
  have hne : encode i ++ bytes ≠ [] := List.append_ne_nil_of_left_ne_nil (encode_ne_nil i) _
  generalize encode i ++ bytes = bs at hd hdrop hne
  cases bs with
  | nil => exact absurd rfl hne
  | cons b bs => simp only [decodeUpTo, hd, hdrop, h]

theorem length_le_flatMap_encode (is : List Instr) : is.length ≤ (is.flatMap encode).length := by
  induction is with
  | nil => exact Nat.le_refl _
  | cons i is ih =>
    have := encode_length_pos i
    simp only [List.flatMap_cons, List.length_append, List.length_cons]
    omega

theorem decodeUpTo_flatMap_encode : ∀ {fuel : Nat} {is : List Instr}, (∀ i ∈ is, i.wf = true) →
    is.length ≤ fuel → decodeUpTo fuel (is.flatMap encode) = .ok is
  | fuel, [], _, _ => by cases fuel <;> rfl
  | fuel + 1, i :: is, hw, hlen => by
    obtain ⟨hwi, hws⟩ := List.forall_mem_cons.1 hw
    exact decodeUpTo_encode_append hwi (decodeUpTo_flatMap_encode hws (Nat.le_of_succ_le_succ hlen))

theorem decodeImage_flatMap_encode (hw : ∀ i ∈ is, i.wf = true) :
    decodeImage (is.flatMap encode) = .ok is :=
  decodeUpTo_flatMap_encode hw (length_le_flatMap_encode is)

/-- Settles O43: the decoder tells apart an encoding and its proper extension, and takes the encodings
off an image one by one. -/
theorem imageDecodesToItsInstructions : Obligations.ImageDecodesToItsInstructions :=
  ⟨fun _ _ => eq_of_encode_prefix, fun _ => decodeImage_flatMap_encode⟩

/-- What is decoded is the concatenation of the encodings of well-formed instructions. -/
theorem eq_flatMap_of_decodeUpTo : ∀ {fuel : Nat} {bytes : List Byte} {is : List Instr},
    decodeUpTo fuel bytes = .ok is → (∀ i ∈ is, i.wf = true) ∧ bytes = is.flatMap encode
  | fuel, [], is, h => by
    obtain rfl : [] = is := by cases fuel <;> cases h <;> rfl
    exact ⟨by simp, rfl⟩
  | fuel + 1, b :: bytes, is, h => by
    rw [decodeUpTo] at h
    split at h
    case h_1 => cases h
    case h_2 i n hd =>
      split at h
      case h_1 => cases h
      case h_2 js hrest =>
        cases h
        obtain ⟨hw, heq⟩ := eq_encode_append_of_decodeBytes hd
        obtain ⟨hws, hdrop⟩ := eq_flatMap_of_decodeUpTo hrest
        refine ⟨List.forall_mem_cons.2 ⟨hw, hws⟩, ?_⟩
        rw [List.flatMap_cons, ← hdrop]
        exact heq

/-- The decodable images are the concatenations of well-formed instructions' encodings. -/
theorem decodable_iff (s : State) :
    s.Decodable ↔ ∃ is : List Instr, (∀ i ∈ is, i.wf = true) ∧ s.image = is.flatMap encode := by
  constructor
  · rintro ⟨is, h⟩
    exact ⟨is, eq_flatMap_of_decodeUpTo h⟩
  · rintro ⟨is, hw, himg⟩
    exact ⟨is, himg ▸ decodeImage_flatMap_encode hw⟩

/-! ### More bytes change a truncated answer only -/

section Extend

variable {m : Bool} {p : RegCode} {rest : List Byte} {mkReg : RegCode → RegCode → Instr}
  {mkImm : RegCode → Byte → Instr} {mkAddr : RegCode → Addr → Instr} {mkHl mkReg1 : RegCode → Instr}
  {mkImm1 : Byte → Instr}

theorem decodeRegOrImm_append (h : decodeRegOrImm mkReg mkImm m p rest ≠ .error .truncated) :
    decodeRegOrImm mkReg mkImm m p (rest ++ more) = decodeRegOrImm mkReg mkImm m p rest := by
  cases rest <;> simp_all [decodeRegOrImm]

theorem decodeAddrOrHl_append (h : decodeAddrOrHl mkAddr mkHl m p rest ≠ .error .truncated) :
    decodeAddrOrHl mkAddr mkHl m p (rest ++ more) = decodeAddrOrHl mkAddr mkHl m p rest := by
  match rest with
  | [] | [_] | _ :: _ :: _ => cases m <;> simp_all [decodeAddrOrHl]

theorem decodeSingle_append (h : decodeSingle mkReg1 mkImm1 m p rest ≠ .error .truncated) :
    decodeSingle mkReg1 mkImm1 m p (rest ++ more) = decodeSingle mkReg1 mkImm1 m p rest := by
  cases rest <;> cases m <;> simp_all [decodeSingle]

theorem decodeLda_append (h : decodeLda m p rest ≠ .error .truncated) :
    decodeLda m p (rest ++ more) = decodeLda m p rest := by
  match rest with
  | [] | [_] | _ :: _ :: _ => cases m <;> simp_all [decodeLda]

end Extend

theorem decodeBytes_append (h : decodeBytes bytes ≠ .error .truncated) (more : List Byte) :
    decodeBytes (bytes ++ more) = decodeBytes bytes := by
  cases bytes with
  | nil => exact absurd rfl h
  | cons b rest =>
    rw [List.cons_append]
    simp only [decodeBytes] at h ⊢
    generalize Mnemonic.ofClass (byte0Class b) = mn at h ⊢
    cases mn
    case mw | inb | outb | add | adc | and | or | nor | cmp | sbb => exact decodeRegOrImm_append h
    case lw | sw => exact decodeAddrOrHl_append h
    case push | jnz => exact decodeSingle_append h
    case pop => rfl
    case lda => exact decodeLda_append h

/-- An answer `not_produced` stands whatever bytes follow. -/
theorem decodeBytes_append_notProduced (h : decodeBytes bytes = .error .notProduced)
    (more : List Byte) : decodeBytes (bytes ++ more) = .error .notProduced := by
  rw [decodeBytes_append (by simp [h]), h]

/-! ### Byte 0 (R80, R81) -/

theorem decodeBytes_of_not_producedByte0 (h : producedByte0 b = false) (rest : List Byte) :
    decodeBytes (b :: rest) = .error .notProduced := by
  have hb : decodeBytes [b] = .error .notProduced := by revert b; decide
  exact decodeBytes_append_notProduced hb rest

/-- Two further zero bytes complete every byte 0 that is produced. -/
theorem exists_decodeBytes_of_producedByte0 (h : producedByte0 b = true) :
    ∃ i n, decodeBytes [b, 0, 0] = .ok (i, n) := by
  have hok : (decodeBytes [b, 0, 0]).isOk = true := by revert b; decide
  cases hd : decodeBytes [b, 0, 0] with
  | error e => rw [hd] at hok; cases hok
  | ok d => exact ⟨d.1, d.2, rfl⟩

theorem producedByte0_iff :
    producedByte0 b = true ↔ ∃ i : Instr, i.wf = true ∧ (encode i).head? = some b := by
  constructor
  · intro h
    obtain ⟨i, n, hd⟩ := exists_decodeBytes_of_producedByte0 h
    obtain ⟨hw, heq⟩ := eq_encode_append_of_decodeBytes hd
    refine ⟨i, hw, ?_⟩
    rw [← List.head?_append_of_ne_nil _ (encode_ne_nil i), ← heq]
    rfl
  · rintro ⟨i, hw, hhead⟩
    obtain ⟨rest, hrest⟩ := List.head?_eq_some_iff.1 hhead
    by_contra hb
    have hd := decodeBytes_encode_append hw []
    rw [hrest, List.cons_append, decodeBytes_of_not_producedByte0 (Bool.not_eq_true _ ▸ hb)] at hd
    cases hd

/-- Settles O44: the decoder answers `not_produced` for a byte 0 outside the table whatever follows, and
an instruction for every other when zero bytes follow; the count is the table's. -/
theorem producedByteZeroValues : Obligations.ProducedByteZeroValues :=
  ⟨fun _ => producedByte0_iff, rfl⟩

/-- R81 in the fields of byte 0: the class and the mode give the length, the primary register does not
enter it. -/
theorem lengthOfByte0_packByte0 (mn : Mnemonic) (m : Bool) (p : RegCode) :
    lengthOfByte0 (packByte0 mn m p) =
      if mn = .lda then 3 else if mn = .pop then 1
      else if mn ∈ [.lw, .sw] then (if m then 1 else 3)
      else if mn ∈ [.push, .jnz] then (if m then 1 else 2)
      else 2 := by
  cases mn <;> cases m <;> revert p <;> decide

/-- Settles O45: an encoding is a format's bytes on a packed byte 0, whose class and mode give the
length. -/
theorem lengthIsAFunctionOfByteZero : Obligations.LengthIsAFunctionOfByteZero := by
  rintro i -
  rw [← enc_call i]
  cases i <;> exact ⟨_, _, rfl, by rw [lengthOfByte0_packByte0]; rfl⟩

/-! ### Patterns that are not produced (R82, R85) -/

/-- A byte 0 of mode 1 and length 2 is one of format RR. -/
theorem decodeBytes_of_rr (hm : 8 ≤ b.toNat % 16) (hlen : lengthOfByte0 b = 2) :
    ∃ mkReg mkImm, ∀ rest, decodeBytes (b :: rest) =
      decodeRegOrImm mkReg mkImm true (byte0Prim b) rest := by
  have hmode : byte0Mode b = true := by revert b; decide
  have hmn : Mnemonic.ofClass (byte0Class b) ∉ [.lw, .sw, .push, .pop, .lda, .jnz] := by
    revert b; decide
  simp only [decodeBytes, hmode]
  generalize Mnemonic.ofClass (byte0Class b) = mn at hmn
  cases mn
  case mw | inb | outb | add | adc | and | or | nor | cmp | sbb => exact ⟨_, _, fun _ => rfl⟩
  case lw | sw | push | pop | lda | jnz => simp at hmn

theorem decodeRegOrImm_unnamed {mkReg : RegCode → RegCode → Instr} {mkImm : RegCode → Byte → Instr}
    (hb : 5 < b.toNat) (p : RegCode) (rest : List Byte) :
    decodeRegOrImm mkReg mkImm true p (b :: rest) = .error .notProduced := by
  simp [decodeRegOrImm, hb]

/-- R85: an encoding cut short is read neither as an instruction, whose bytes would be all of the
encoding, nor as `not_produced`, which more bytes do not change. -/
theorem decodeBytes_take_encode {k : Nat} (hw : i.wf = true) (hk : k < (encode i).length) :
    decodeBytes ((encode i).take k) = .error .truncated := by
  have hfull := decodeBytes_encode_append hw []
  rw [List.append_nil] at hfull
  by_contra hne
  have happ := decodeBytes_append hne ((encode i).drop k)
  rw [List.take_append_drop, hfull] at happ
  obtain ⟨-, -, htake⟩ := reads_of_decodeBytes happ.symm
  have hlen := congrArg List.length htake
  simp only [List.length_take] at hlen
  omega

/-- Settles O46: byte 0 alone decides the first clause and byte 1 the second; the third is that of
an encoding cut short. -/
theorem notProducedPatternsAreInvalid : Obligations.NotProducedPatternsAreInvalid := by
  refine ⟨fun b rest h => decodeBytes_of_not_producedByte0 h rest, ?_,
    fun i k hw hk => decodeBytes_take_encode hw hk⟩
  intro b b1 rest _ hm hlen hb1
  obtain ⟨mkReg, mkImm, harm⟩ := decodeBytes_of_rr hm hlen
  rw [harm]
  exact decodeRegOrImm_unnamed hb1 _ _

/-! ### Classes and worked examples -/

/-- Settles O39: `ofClass_classCode`, and the sixteen classes one by one. -/
theorem classesAndMnemonicsCorrespond : Obligations.ClassesAndMnemonicsCorrespond :=
  ⟨ofClass_classCode, by decide⟩

/-- Settles O40, by running the decoder. -/
theorem workedExamplesDecode : Obligations.WorkedExamplesDecode := by
  unfold Obligations.WorkedExamplesDecode
  decide

end Sys2Proof.Machine
end

section
/-! Encode commands and instructions (40_session.md sections 1 and 2, 60_exceptions.md): the three next
states each has, what they leave unchanged, and when there is none. -/

namespace Sys2Proof.Machine

variable {s t : State} {i : Instr} {mn : Mnemonic} {a b : Operand} {a1 a2 : Bool} {bs : List Byte}

/-! ### The next states (R102) -/

/-- The next states of the common encode step, the two rejections as one. -/
theorem encodeCommand_next (h : encodeCommand mn a b s = .next t) :
    (t = s.afterOk (enc mn a b) ∧ s.Open ∧ (accept mn .one a = true ∧ accept mn .two b = true) ∧
      s.HasRoom (enc mn a b).length) ∨
    (∃ slot, t = s.afterReject slot ∧ s.Open ∧
      ¬ (accept mn .one a = true ∧ accept mn .two b = true)) ∨
    (t = s.afterTerminated ∧ ¬ s.Open) := by
  obtain ⟨ho, ht⟩ | ⟨ho, h1, ht⟩ | ⟨ho, -, h2, ht⟩ | ⟨ho, h1, h2, hr, ht⟩ := encodeStep_next h
  · exact .inr (.inr ⟨ht, ho⟩)
  · exact .inr (.inl ⟨.one, ht, ho, by simp [h1]⟩)
  · exact .inr (.inl ⟨.two, ht, ho, by simp [h2]⟩)
  · exact .inl ⟨ht, ho, ⟨h1, h2⟩, hr⟩

/-- The same of an instruction, whose call is accepted exactly when it is well-formed. -/
theorem exec_next (h : exec i s = .next t) :
    (t = s.afterOk (encode i) ∧ s.Open ∧ i.wf = true) ∨
    (∃ slot, t = s.afterReject slot ∧ s.Open ∧ i.wf = false) ∨
    (t = s.afterTerminated ∧ ¬ s.Open) := by
  rw [exec_eq_encodeCommand] at h
  have hnext := encodeCommand_next h
  rw [enc_call, accept_call_iff_wf, Bool.not_eq_true] at hnext
  obtain ⟨ht, ho, hw, -⟩ | hrej | hend := hnext
  · exact .inl ⟨ht, ho, hw⟩
  · exact .inr (.inl hrej)
  · exact .inr (.inr hend)

/-- Settles O15: dispatch through the rows is the common step, whose branches are the clauses. -/
theorem encodeCommandIsTheCommonStep : Obligations.EncodeCommandIsTheCommonStep := by
  unfold Obligations.EncodeCommandIsTheCommonStep
  simp only [runCommand_encode]
  intro mn a b s
  exact ⟨encodeStep_ended, encodeStep_reject_one, encodeStep_reject_two, encodeStep_full, encodeStep_ok⟩

/-- Settles O17. -/
theorem packingAgreesWithTheOpcodeTable : Obligations.PackingAgreesWithTheOpcodeTable := enc_call

/-- Settles O11: slot 1 has the check `{Imm16}`, with no implicit form, and slot 2 the check
`{absent}`. -/
theorem ldaEncodesOrRejects : Obligations.LdaEncodesOrRejects := by
  intro s ho
  refine ⟨fun w hr => ?_, fun a b ha => ?_, fun a b ha hb => ?_⟩
  · exact runCommand_accepted rfl rfl ho rfl rfl hr
  · exact runCommand_reject_one ho ((acceptsAddr_eq_false a).2 ha)
  · exact runCommand_reject_two ho ((acceptsAddr_iff a).2 ha) ((acceptsAbsent_eq_false b).2 hb)

/-! ### Frames (R105, R109) -/

theorem encodeCommand_config (h : encodeCommand mn a b s = .next t) : t.config = s.config := by
  obtain ⟨rfl, -⟩ | ⟨slot, rfl, -⟩ | ⟨rfl, -⟩ := encodeCommand_next h <;> rfl

theorem encodeCommand_commands (h : encodeCommand mn a b s = .next t) : t.commands = s.commands := by
  obtain ⟨rfl, -⟩ | ⟨slot, rfl, -⟩ | ⟨rfl, -⟩ := encodeCommand_next h <;> rfl

/-- An encode command answers one status, which tells what happened to the image and the flag. -/
theorem encodeCommand_status (h : encodeCommand mn a b s = .next t) :
    ∃ st : Status, t.responses = s.responses ++ [.status st] ∧
      t.image = s.image ++ okBytes [.status st] ∧
      ((∃ slot, st = .invalidOperandVariant slot) → t.fault = true) ∧
      ((¬ ∃ slot, st = .invalidOperandVariant slot) → t.fault = s.fault) := by
  obtain ⟨rfl, -⟩ | ⟨slot, rfl, -⟩ | ⟨rfl, -⟩ := encodeCommand_next h
  · exact ⟨.ok (enc mn a b), by simp [okBytes]⟩
  · exact ⟨.invalidOperandVariant slot, by simp [okBytes]⟩
  · exact ⟨.terminated, by simp [okBytes]⟩

theorem encodeCommand_readByte (h : encodeCommand mn a b s = .next t) {k : Nat}
    (hk : k < s.image.length) : t.readByte k = s.readByte k := by
  obtain ⟨bs, himg, -⟩ := encodeCommand_image_append h
  exact readByte_of_image_append himg hk

/-- Settles O20: the four parts of the frame. -/
theorem encodeCommandFrame : Obligations.EncodeCommandFrame := by
  intro mn a b s t h
  rw [runCommand_encode] at h
  exact ⟨encodeCommand_config h, encodeCommand_commands h, fun _ => encodeCommand_readByte h,
    encodeCommand_status h⟩

/-- Settles O21: the frame of the instruction's call, and the three next states of exec. -/
theorem instructionFrame : Obligations.InstructionFrame := by
  intro i s t h
  have hcall := h
  rw [exec_eq_encodeCommand] at hcall
  exact ⟨encodeCommand_config hcall, encodeCommand_commands hcall,
    fun _ => encodeCommand_readByte hcall, exec_next h⟩

/-! ### Rejection and the full image (R23, R49) -/

theorem encodeStep_completes (hr : s.HasRoom bs.length) : ∃ t, encodeStep a1 a2 bs s = .next t := by
  by_cases ho : s.Open
  · cases a1
    · exact ⟨_, encodeStep_reject_one ho rfl⟩
    · cases a2
      · exact ⟨_, encodeStep_reject_two ho rfl rfl⟩
      · exact ⟨_, encodeStep_ok ho rfl rfl hr⟩
  · exact ⟨_, encodeStep_ended ho⟩

theorem exec_of_not_wf (hw : i.wf = false) (ho : s.Open) :
    ∃ slot, exec i s = .next (s.afterReject slot) := by
  rw [exec_eq_encodeCommand]
  cases h1 : accept (mnemonicOf i) .one (slot1Of i) with
  | false => exact ⟨.one, encodeStep_reject_one ho h1⟩
  | true =>
    cases h2 : accept (mnemonicOf i) .two (slot2Of i) with
    | false => exact ⟨.two, encodeStep_reject_two ho h1 h2⟩
    | true =>
      rw [(accept_call_iff_wf i).1 ⟨h1, h2⟩] at hw
      cases hw

/-- Settles O19: some slot of an ill-formed instruction's call is not accepted, and of the three next
states of exec only that of a well-formed instruction is answered `OK`. -/
theorem unnamedRegisterIsRejected : Obligations.UnnamedRegisterIsRejected := by
  refine ⟨fun i s => exec_of_not_wf, ?_⟩
  intro i s t bs h hans
  refine ⟨?_, (exec_answered_ok h hans).1⟩
  obtain ⟨-, -, hw⟩ | ⟨slot, rfl, -⟩ | ⟨rfl, -⟩ := exec_next h
  · exact hw
  · simp at hans
  · simp at hans

/-- Settles O29: an accepted call stops only for want of room, and an unbounded image has room. -/
theorem fullImageStopsTheCommand : Obligations.FullImageStopsTheCommand := by
  unfold Obligations.FullImageStopsTheCommand
  simp only [exec_eq_encodeCommand]
  constructor
  · intro i s hw ho hr
    obtain ⟨h1, h2⟩ := (accept_call_iff_wf i).2 hw
    rw [← enc_call i] at hr
    exact encodeStep_full ho h1 h2 hr
  · intro i s hcap
    exact encodeStep_completes (hasRoom_of_unbounded s hcap _)

/-! ### After an error (R108) -/

theorem not_open_of_fault_abort (hf : s.fault = true) (hp : s.config.errorPolicy = .abort) :
    ¬ s.Open := fun ho => ho ⟨hf, hp⟩

theorem afterOk_of_fault (hf : s.fault = true) (bs : List Byte) :
    { ({ s with fault := false } : State).afterOk bs with fault := true } = s.afterOk bs := by
  simp [State.afterOk, hf]

/-- Under `REPORT` no guard of the common step reads the flag, and a set flag stays set. -/
theorem encodeCommand_of_report (hf : s.fault = true) (hp : s.config.errorPolicy = .report)
    (h : encodeCommand mn a b { s with fault := false } = .next t) :
    encodeCommand mn a b s = .next { t with fault := true } := by
  have ho : s.Open := open_of_report s hp
  obtain ⟨hc, -⟩ | ⟨-, h1, rfl⟩ | ⟨-, h1, h2, rfl⟩ | ⟨-, h1, h2, hr, rfl⟩ := encodeStep_next h
  · exact (hc (open_of_report _ hp)).elim
  · exact encodeStep_reject_one ho h1
  · exact encodeStep_reject_two ho h1 h2
  · rw [afterOk_of_fault hf]
    exact encodeStep_ok ho h1 h2 hr

/-- Settles O23: an ended session takes the first branch of the common step, and under `REPORT` a set
flag makes no difference to the others. -/
theorem encodingAfterAnError : Obligations.EncodingAfterAnError := by
  unfold Obligations.EncodingAfterAnError
  simp only [runCommand_encode, exec_eq_encodeCommand]
  constructor
  · intro s hf hp
    have hend := not_open_of_fault_abort hf hp
    refine ⟨fun i => encodeStep_ended hend, fun mn a b => encodeStep_ended hend, ?_⟩
    rw [← hf]
    rfl
  · intro s t mn a b
    exact encodeCommand_of_report

end Sys2Proof.Machine
end

section
/-! What every step keeps (20_memory.md R53, 40_session.md R103), each from the four next states of a
step. -/

namespace Sys2Proof.Machine

variable {s t : State} {mn : Mnemonic} {a b : Operand} {slot : Slot}

/-! ### Parameters, waiting commands, answers -/

theorem step_config (h : step s = .next t) : t.config = s.config := by
  obtain ⟨-, rfl⟩ | ⟨rest, -, rfl⟩ | ⟨rest, -, rfl⟩ | ⟨mn, a, b, rest, -, he⟩ := step_next h
  · rfl
  · rfl
  · rfl
  · simpa using encodeCommand_config he

/-- A step takes one command, where there is one. -/
theorem step_commands (h : step s = .next t) : t.commands = s.commands.tail := by
  obtain ⟨hc, rfl⟩ | ⟨rest, hc, rfl⟩ | ⟨rest, hc, rfl⟩ | ⟨mn, a, b, rest, hc, he⟩ := step_next h
  · simp [hc]
  · simp [hc]
  · simp [hc]
  · simpa [hc] using encodeCommand_commands he

/-- Settles O31. -/
theorem noCommandSetsAParameter : Obligations.NoCommandSetsAParameter := fun _ _ => step_config

/-- Settles O32: no answer, none, the image, or one status. -/
theorem earlierAnswersStand : Obligations.EarlierAnswersStand := by
  intro s t h
  obtain ⟨-, rfl⟩ | ⟨rest, -, rfl⟩ | ⟨rest, -, rfl⟩ | ⟨mn, a, b, rest, -, he⟩ := step_next h
  · exact ⟨[], by simp⟩
  · exact ⟨[], by simp⟩
  · exact ⟨[.image s.image s.fault], rfl, Nat.le_refl 1⟩
  · obtain ⟨st, hans, -⟩ := encodeCommand_status he
    exact ⟨[.status st], hans, Nat.le_refl 1⟩

/-- Settles O1. -/
theorem newGivesTheResetState : Obligations.NewGivesTheResetState := ⟨rfl, rfl, fun _ => rfl⟩

/-- Settles O2. -/
theorem bytesReadsWithoutSideEffect : Obligations.BytesReadsWithoutSideEffect := fun _ => rfl

/-- Settles O3. -/
theorem idleBlockHoldsItsState : Obligations.IdleBlockHoldsItsState := fun _ => step_nil

/-- Settles O4: a step runs the head of the stream, and an instruction's call runs the instruction. -/
theorem stepRunsTheNextCommand : Obligations.StepRunsTheNextCommand :=
  ⟨fun _ _ _ => step_cons rfl, fun _ i _ => (step_cons rfl).trans (runCommand_commandOf i _)⟩

/-- Settles O5: the word's instruction stands next in the stream as its call. -/
theorem stepRunsTheFetchedWord : Obligations.StepRunsTheFetchedWord := by
  intro s nbits w i hw
  have hcmd : commandOfWord nbits w = commandOf i := by simp [commandOfWord, hw]
  rw [State.withFetchWord, hcmd, step_cons (putNext_commands s _)]
  exact runCommand_commandOf i s

/-- Settles O30: of the commands only an encode command can stop, and only for want of room. -/
theorem everyCommandCompletes : Obligations.EveryCommandCompletes := by
  refine ⟨?_, fun s => ⟨⟨_, rfl⟩, ⟨_, rfl⟩⟩⟩
  intro s c rest hc hres hcap
  suffices hnext : ∃ t, step s = .next t by
    obtain ⟨t, ht⟩ := hnext
    exact ⟨t, ht, by rw [step_commands ht, hc, List.tail_cons]⟩
  rw [step_cons hc]
  cases c with
  | new => exact ⟨_, rfl⟩
  | read => exact ⟨_, rfl⟩
  | encode mn a b =>
    rw [runCommand_encode]
    exact encodeStep_completes (hasRoom_of_unbounded _ hcap _)
  | reserved => exact absurd rfl hres

/-! ### The fault flag and the ended session (R29, R162, R167) -/

/-- An encode command answered with the error has taken the rejecting branch. -/
theorem encodeCommand_answered_reject (h : encodeCommand mn a b s = .next t)
    (hans : t.responses = s.responses ++ [.status (.invalidOperandVariant slot)]) :
    t = s.afterReject slot := by
  obtain ⟨rfl, -⟩ | ⟨slot', rfl, -⟩ | ⟨rfl, -⟩ := encodeCommand_next h
  · simp at hans
  · obtain rfl : slot' = slot := by simpa using hans
    rfl
  · simp at hans

/-- Settles O24: only the rejecting branch of an encode command gives that answer. -/
theorem errorLeavesTheImage : Obligations.ErrorLeavesTheImage := by
  intro s t slot h hans
  obtain ⟨-, rfl⟩ | ⟨rest, -, rfl⟩ | ⟨rest, -, rfl⟩ | ⟨mn, a, b, rest, hc, he⟩ := step_next h
  · simp at hans
  · simp at hans
  · simp at hans
  · obtain rfl := encodeCommand_answered_reject he hans
    simp [hc]

theorem encodeCommand_fault_iff (h : encodeCommand mn a b s = .next t) :
    t.fault = true ↔ s.fault = true ∨
      ∃ slot, t.responses = s.responses ++ [.status (.invalidOperandVariant slot)] := by
  obtain ⟨rfl, -⟩ | ⟨slot, rfl, -⟩ | ⟨rfl, -⟩ := encodeCommand_next h
  · simp
  · simp
  · simp

/-- Settles O25. -/
theorem faultFlagIsSetByRejectionClearedByNew : Obligations.FaultFlagIsSetByRejectionClearedByNew := by
  intro s t h
  obtain ⟨hc, rfl⟩ | ⟨rest, hc, rfl⟩ | ⟨rest, hc, rfl⟩ | ⟨mn, a, b, rest, hc, he⟩ := step_next h
  · simp [hc]
  · simp [hc]
  · simp [hc]
  · simpa [hc] using encodeCommand_fault_iff he

/-- Settles O26: every other step leaves an ended session ended. -/
theorem onlyNewReopensTheSession : Obligations.OnlyNewReopensTheSession := by
  intro s t h hend hopen
  obtain ⟨-, rfl⟩ | ⟨rest, hc, -⟩ | ⟨rest, -, rfl⟩ | ⟨mn, a, b, rest, -, he⟩ := step_next h
  · exact absurd hopen hend
  · simp [hc]
  · exact absurd hopen hend
  · obtain ⟨-, ho, -⟩ | ⟨slot, -, ho, -⟩ | ⟨rfl, -⟩ := encodeCommand_next he
    · exact absurd ho hend
    · exact absurd ho hend
    · exact absurd hopen hend

/-! ### The image: capacity and contents -/

/-- Settles O33: bytes are appended only where there is room for them. -/
theorem stepKeepsTheImageWithinCapacity : Obligations.StepKeepsTheImageWithinCapacity := by
  intro s t hcap h
  obtain ⟨-, rfl⟩ | ⟨rest, -, rfl⟩ | ⟨rest, -, rfl⟩ | ⟨mn, a, b, rest, -, he⟩ := step_next h
  · exact hcap
  · exact fun _ _ => Nat.zero_le _
  · exact hcap
  · obtain ⟨rfl, -, -, hr⟩ | ⟨slot, rfl, -⟩ | ⟨rfl, -⟩ := encodeCommand_next he
    · intro cap hc
      simpa using hr cap hc
    · exact hcap
    · exact hcap

/-- Operands that both slots accept are of the variants of a row (R70, R106). -/
theorem exists_formOf?_of_accept (h1 : accept mn .one a = true) (h2 : accept mn .two b = true) :
    ∃ i, formOf? mn a b = some i := by
  cases mn <;> cases a <;> cases b <;>
    simp_all [formOf?, accept, acceptsReg, acceptsRegImm8, acceptsAddrOrAbsent, acceptsAddr,
      acceptsAbsent]

/-- What an accepted command packs is the encoding of a well-formed instruction. -/
theorem exists_encode_of_accept (h1 : accept mn .one a = true) (h2 : accept mn .two b = true) :
    ∃ i : Instr, i.wf = true ∧ enc mn a b = encode i := by
  obtain ⟨i, hi⟩ := exists_formOf?_of_accept h1 h2
  obtain ⟨rfl, rfl, rfl⟩ := formOf?_eq_some hi
  exact ⟨i, (accept_call_iff_wf i).1 ⟨h1, h2⟩, enc_call i⟩

theorem decodable_of_image_nil (h : s.image = []) : s.Decodable :=
  ⟨[], by rw [h]; rfl⟩

/-- One more whole instruction keeps the image decodable. -/
theorem decodable_afterOk_encode {i : Instr} (hs : s.Decodable) (hw : i.wf = true) :
    (s.afterOk (encode i)).Decodable := by
  obtain ⟨is, hws, himg⟩ := (decodable_iff s).1 hs
  refine (decodable_iff _).2 ⟨is ++ [i], ?_, ?_⟩
  · simpa [or_imp, forall_and] using ⟨hws, hw⟩
  · simp [himg]

/-- Settles O34: `new()` empties the image, and the only other change to it appends the encoding of a
well-formed instruction. -/
theorem stepKeepsTheImageDecodable : Obligations.StepKeepsTheImageDecodable := by
  intro s t hs h
  obtain ⟨-, rfl⟩ | ⟨rest, -, rfl⟩ | ⟨rest, -, rfl⟩ | ⟨mn, a, b, rest, -, he⟩ := step_next h
  · exact hs
  · exact decodable_of_image_nil rfl
  · exact hs
  · obtain ⟨rfl, -, ⟨h1, h2⟩, -⟩ | ⟨slot, rfl, -⟩ | ⟨rfl, -⟩ := encodeCommand_next he
    · obtain ⟨i, hw, henc⟩ := exists_encode_of_accept h1 h2
      rw [henc]
      exact decodable_afterOk_encode hs hw
    · exact hs
    · exact hs

/-- Settles O35. -/
theorem resetMeetsTheInvariants : Obligations.ResetMeetsTheInvariants :=
  ⟨decodable_of_image_nil rfl, fun _ _ => Nat.zero_le _⟩

/-! ### Runs without `new()` (R32) -/

theorem okBytes_append (rs rs' : List Response) : okBytes (rs ++ rs') = okBytes rs ++ okBytes rs' := by
  induction rs with
  | nil => rfl
  | cons r rs ih =>
    match r with
    | .status (.ok bs) => simp [okBytes, ih]
    | .image _ _ | .status (.invalidOperandVariant _) | .status .terminated => exact ih

theorem step_image_okBytes (hnew : s.commands.head? ≠ some .new) (h : step s = .next t) :
    ∃ rs : List Response, t.responses = s.responses ++ rs ∧ t.image = s.image ++ okBytes rs := by
  obtain ⟨-, rfl⟩ | ⟨rest, hc, -⟩ | ⟨rest, -, rfl⟩ | ⟨mn, a, b, rest, -, he⟩ := step_next h
  · exact ⟨[], by simp [okBytes]⟩
  · simp [hc] at hnew
  · exact ⟨[.image s.image s.fault], by simp [okBytes]⟩
  · obtain ⟨st, hans, himg, -⟩ := encodeCommand_status he
    exact ⟨[.status st], hans, himg⟩

theorem core_run_succ_next {k : Nat} (h : Sys2Proof.core.run (k + 1) s = .next t) :
    ∃ u, step s = .next u ∧ Sys2Proof.core.run k u = .next t := by
  cases hstep : step s with
  | next u => exact ⟨u, rfl, (core_run_succ hstep k).symm.trans h⟩
  | fault f =>
    have hcore : Sys2Proof.core.step s = .fault f := hstep
    simp [Host.Core.run, hcore] at h
  | refused r =>
    have hcore : Sys2Proof.core.step s = .refused r := hstep
    simp [Host.Core.run, hcore] at h

theorem not_mem_take_succ {c : Command} {cs : List Command} {n : Nat} (h : c ∉ cs.take (n + 1)) :
    cs.head? ≠ some c ∧ c ∉ cs.tail.take n := by
  cases cs with
  | nil => simp
  | cons d cs => simpa [eq_comm] using h

/-- Settles O37, by induction on the number of steps: the answers of the first step and of the rest
follow each other, and so do their bytes. -/
theorem imageIsTheConcatenationOfAcceptedBytes :
    Obligations.ImageIsTheConcatenationOfAcceptedBytes := by
  intro n
  induction n with
  | zero =>
    rintro s t - ⟨⟩
    exact ⟨[], by simp [okBytes]⟩
  | succ n ih =>
    intro s t hnew h
    obtain ⟨u, hstep, hrun⟩ := core_run_succ_next h
    obtain ⟨hhead, htail⟩ := not_mem_take_succ hnew
    rw [← step_commands hstep] at htail
    obtain ⟨rs, hans, himg⟩ := step_image_okBytes hhead hstep
    obtain ⟨rs', hans', himg'⟩ := ih u t htail hrun
    refine ⟨rs ++ rs', ?_, ?_⟩
    · rw [hans', hans, List.append_assoc]
    · rw [himg', himg, okBytes_append, List.append_assoc]

end Sys2Proof.Machine
end

section
/-! The bit-level interface (40_session.md R104) and the loader's view (20_memory.md R50). -/

namespace Sys2Proof.Machine

variable {mn : Mnemonic} {slot : Slot} {c : RegCode}

/-! ### Commands on wires -/

/-- Each tag's payload gives its operand back; the payload 1 under `absent` stays malformed. -/
theorem unpackSlot_tagOf_valOf (x : Operand) : unpackSlot (tagOf x) (valOf x) = x := by
  cases x with
  | reg c => revert c; decide
  | imm8 v =>
    have hlt : v.toNat % 65536 < 256 := by omega
    simp [unpackSlot, tagOf, valOf, hlt]
  | imm16 w => rfl
  | absent => rfl
  | malformed => rfl

/-- Settles O47: the mnemonic is its class's, and each slot is unpacked as it was packed. -/
theorem wiresCarryTheCommand : Obligations.WiresCarryTheCommand := by
  intro c
  cases c with
  | new => rfl
  | read => rfl
  | encode mn a b =>
    simp [packCommand, unpackCommand, ofClass_classCode, unpackSlot_tagOf_valOf]
  | reserved => rfl

/-- Settles O50: the other wires are not read under this code. -/
theorem cmdElevenHasNoStep : Obligations.CmdElevenHasNoStep := by
  intro s w rest hw
  have hcmd : unpackCommand w = .reserved := by simp [unpackCommand, hw]
  rw [step_cons rfl, hcmd]
  rfl

/-! ### Slots that are not well-formed (decision D5) -/

theorem accept_malformed (mn : Mnemonic) (slot : Slot) : accept mn slot .malformed = false := by
  cases slot <;> cases mn <;> rfl

/-- No mnemonic accepts a register code 6 or 7 in either slot (R23). -/
theorem accept_unnamed_reg (hc : 5 < c.toNat) : accept mn slot (.reg c) = false := by
  have hreg : acceptReg c = false := by
    rw [← Bool.not_eq_true, acceptReg_iff]
    exact not_le.2 hc
  cases slot <;> cases mn <;>
    simp [accept, acceptsReg, acceptsRegImm8, acceptsAddrOrAbsent, acceptsAddr, acceptsAbsent, hreg]

/-- Settles O48: such a slot is unpacked as `malformed`, or as a register code that names none. -/
theorem illFormedWireSlotIsNeverAccepted : Obligations.IllFormedWireSlotIsNeverAccepted := by
  rintro tag val mn slot (⟨rfl, hval⟩ | ⟨rfl, hval⟩ | ⟨rfl, hval⟩)
  · have hx : unpackSlot 0 val = .malformed := by simpa [unpackSlot] using hval
    rw [hx, accept_malformed]
  · by_cases hlt : val.toNat < 8
    · have hx : unpackSlot 1 val = .reg (val.setWidth 3) := by simp [unpackSlot, hlt]
      rw [hx]
      refine accept_unnamed_reg ?_
      rw [BitVec.toNat_setWidth, Nat.mod_eq_of_lt hlt]
      exact hval
    · have hx : unpackSlot 1 val = .malformed := by simp [unpackSlot, hlt]
      rw [hx, accept_malformed]
  · have hx : unpackSlot 2 val = .malformed := by
      have hge : ¬ val.toNat < 256 := by omega
      simp [unpackSlot, hge]
    rw [hx, accept_malformed]

/-! ### The answer on wires -/

theorem extract_or_shift_zero (acc : BitVec 24) (b : Byte) :
    ((acc <<< 8) ||| b.setWidth 24).extractLsb' 0 8 = b := by
  ext j hj
  simp [hj]
  omega

theorem extract_or_shift_succ (acc : BitVec 24) (b : Byte) {k : Nat} (hk : k + 1 < 3) :
    ((acc <<< 8) ||| b.setWidth 24).extractLsb' (8 * (k + 1)) 8 = acc.extractLsb' (8 * k) 8 := by
  ext j hj
  have hlt : 8 * (k + 1) + j < 24 := by omega
  have hsub : 8 * (k + 1) + j - 8 = 8 * k + j := by omega
  have hge : ¬ 8 * (k + 1) + j < 8 := by omega
  have hb : b.getLsbD (8 * (k + 1) + j) = false := BitVec.getLsbD_of_ge _ _ (by omega)
  rw [BitVec.getElem_extractLsb', BitVec.getElem_extractLsb']
  simp [hlt, hsub, hge, hb, -BitVec.getLsbD_eq_getElem]

/-- Byte `k` of the answer stands in bits `8k+7:8k`, and unused bits are 0. -/
theorem extract_packOut : ∀ (bs : List Byte) {k : Nat}, k < 3 →
    (packOut bs).extractLsb' (8 * k) 8 = bs[k]?.getD 0
  | [], k, _ => by simp [packOut]
  | b :: bs, 0, _ => extract_or_shift_zero _ b
  | b :: bs, k + 1, hk => by
    rw [List.getElem?_cons_succ, ← extract_packOut bs (Nat.lt_of_succ_lt hk)]
    exact extract_or_shift_succ _ b hk

/-- Settles O49: an instruction's bytes are at most 3, which the 2 bits of the count hold. -/
theorem wireReplyCarriesTheStatus : Obligations.WireReplyCarriesTheStatus := by
  refine ⟨fun i => ⟨rfl, rfl, ?_, fun k => extract_packOut (encode i)⟩, rfl, rfl, rfl⟩
  have hlen := encode_length_le i
  exact Nat.mod_eq_of_lt (by omega)

/-! ### The placed image -/

/-- Settles O51, by induction on the image with the base going up. -/
theorem loaderPlacesTheImageAtTheBase : Obligations.LoaderPlacesTheImageAtTheBase := by
  intro base a b img
  induction img generalizing base with
  | nil => simp [placeAt]
  | cons c img ih =>
    rw [placeAt, List.mem_cons, ih]
    constructor
    · rintro (h | ⟨k, ha, hk⟩)
      · cases h
        exact ⟨0, rfl, rfl⟩
      · exact ⟨k + 1, by omega, hk⟩
    · rintro ⟨k, ha, hk⟩
      cases k with
      | zero =>
        cases hk
        exact .inl (by simp [ha])
      | succ k => exact .inr ⟨k, by omega, hk⟩

end Sys2Proof.Machine
end
